-- ==== Sys2Proof/Word.lean ====
section
/-! DEFINITION. The word types of the core: the 32-bit instruction word, its 11-bit opcode field, and register numbers
(00_scope.md R18). The width of a register and of a memory slot is a launch parameter (`Params.width`), so a register value
is a `BitVec` of that width and has no name here. -/

namespace Sys2Proof

/-- One instruction word, 32 bits; bit 31 is the first character of its input line (R18, R42). -/
abbrev InstrWord := BitVec 32

/-- The opcode field `w[31:21]`, 11 bits (R61). -/
abbrev OpcodeField := BitVec 11

/-- A general register's number, 0 to 31; no number has a special meaning (R21, R86). -/
abbrev RegIdx := Fin 32

end Sys2Proof
end

