-- ==== Sys2Proof/Config.lean ====
section
/-! DEFINITION. The core's parameters (00_scope.md R9): the values the source fixes, and the four the spec leaves OPEN, which
the host hands over at launch (60_exceptions.md R187) and which `State` therefore carries as plain data. Every definition of
the model works at every value of the four. -/

namespace Sys2Proof

/-- `NREG`, the number of general registers. -/
def Config.nreg : Nat := 32

/-- `BASE`, the instruction address of image entry 0. -/
def Config.base : Nat := 96

/-- `STEP`, the address step between image entries. -/
def Config.stride : Nat := 4

/-- `BANK_SLOTS`, the slots of one memory bank. -/
def Config.bankSlots : Nat := 8

/-- `INCOMPLETE_OPS`: what LSR, LSL, ASR, MOVZ and MOVK do (R9, decision D6). -/
inductive IncompleteOps where
  /-- Each of the five retires and changes nothing but `pc`, `cycle` and the trace: the default. -/
  | tracedOnly
  /-- The run stops with status `Refused(mn)` before the instruction retires. -/
  | refuse
deriving DecidableEq, Repr

/-- `DATA_EXEC`: what the engine does at a RAW-DATA record (R9, decision D8). -/
inductive DataExec where
  /-- The record executes as NOP: the default. -/
  | asNop
  /-- The run stops with status `Faulted(DataExecuted)` before the record retires. -/
  | fault
deriving DecidableEq, Repr

/-- The OPEN parameters of R9, with the defaults the spec names. -/
structure Params where
  /-- `W`, the width of a register and of a memory slot in bits; the spec wants at least 32 (decision D1). -/
  width : Nat := 64
  /-- `PRELOAD_DATA`: whether the RAW-DATA literals stand in data memory after engine reset (decision D3). -/
  preloadData : Bool := false
  /-- `INCOMPLETE_OPS`. -/
  incompleteOps : IncompleteOps := .tracedOnly
  /-- `DATA_EXEC`. -/
  dataExec : DataExec := .asNop
deriving DecidableEq, Repr

/-- Every OPEN parameter at the spec's default. -/
def Config.defaultParams : Params := {}

/-- The bound D1 puts on `W`: literals of 32 bits and immediates of 12 must fit. -/
def Params.wf (p : Params) : Bool := decide (32 ≤ p.width)

end Sys2Proof
end

