-- ==== Sys2Proof/Syntax.lean ====
section
/-! DEFINITION. The instruction set: the 19 mnemonics, the nine format tags, the operand fields of each format as a closed
tagged variant (30_encoding.md R62 to R71, R79), and `Instr`, one constructor per row of the opcode table (R72). -/

namespace Sys2Proof

/-- The 19 mnemonics of the opcode table (R2, R72). -/
inductive Mnemonic where
  | B | AND | ADD | ADDI | ORR | CBZ | CBNZ | SUB | SUBI | MOVZ | MOVK | LSR | LSL | ASR | EOR | STUR | LDUR | BREAK | NOP
deriving DecidableEq, Repr

/-- The nine format tags (R62). -/
inductive Format where
  | R | I | D | B | CB | IM | BREAK | NOP | rawData
deriving DecidableEq, Repr

/-- The operand fields a record carries: exactly those of its format (R71). -/
inductive Fields where
  /-- No operand field: BREAK and NOP (R69), and every record that was never classified. -/
  | none
  /-- R-format (R63). -/
  | r (rd rn rm : RegIdx) (shamt : Nat)
  /-- I-format; `imm` is the signed value (R64). -/
  | i (rd rn : RegIdx) (imm : Int)
  /-- CB-format; `offset` is the signed instruction count (R65). -/
  | cb (rt : RegIdx) (offset : Int)
  /-- IM-format (R66). -/
  | im (rd : RegIdx) (field shiftCode : Nat)
  /-- D-format; `address` is the unsigned word offset, `op2` the reserved field (R67). -/
  | d (rt rn : RegIdx) (address op2 : Nat)
  /-- B-format; `offset` is the signed instruction count (R68). -/
  | b (offset : Int)
  /-- RAW-DATA; `literal` is the word read as a signed number (R79). -/
  | rawData (literal : Int)
deriving DecidableEq, Repr

/-- One decoded instruction: a row of the opcode table with the operand fields of its format. The fields no rule reads
(`shamt` of the ALU rows, `rm` of the shifts, `op2`) are carried, as the record carries them (R76). -/
inductive Instr where
  | b (offset : Int)
  | and (rd rn rm : RegIdx) (shamt : Nat)
  | add (rd rn rm : RegIdx) (shamt : Nat)
  | addi (rd rn : RegIdx) (imm : Int)
  | orr (rd rn rm : RegIdx) (shamt : Nat)
  | cbz (rt : RegIdx) (offset : Int)
  | cbnz (rt : RegIdx) (offset : Int)
  | sub (rd rn rm : RegIdx) (shamt : Nat)
  | subi (rd rn : RegIdx) (imm : Int)
  | movz (rd : RegIdx) (field shiftCode : Nat)
  | movk (rd : RegIdx) (field shiftCode : Nat)
  | lsr (rd rn rm : RegIdx) (shamt : Nat)
  | lsl (rd rn rm : RegIdx) (shamt : Nat)
  | asr (rd rn rm : RegIdx) (shamt : Nat)
  | eor (rd rn rm : RegIdx) (shamt : Nat)
  | stur (rt rn : RegIdx) (address op2 : Nat)
  | ldur (rt rn : RegIdx) (address op2 : Nat)
  | brk
  | nop
deriving DecidableEq, Repr

/-- The mnemonic of an instruction's row. -/
def Instr.mnemonic : Instr → Mnemonic
  | .b _ => .B
  | .and _ _ _ _ => .AND
  | .add _ _ _ _ => .ADD
  | .addi _ _ _ => .ADDI
  | .orr _ _ _ _ => .ORR
  | .cbz _ _ => .CBZ
  | .cbnz _ _ => .CBNZ
  | .sub _ _ _ _ => .SUB
  | .subi _ _ _ => .SUBI
  | .movz _ _ _ => .MOVZ
  | .movk _ _ _ => .MOVK
  | .lsr _ _ _ _ => .LSR
  | .lsl _ _ _ _ => .LSL
  | .asr _ _ _ _ => .ASR
  | .eor _ _ _ _ => .EOR
  | .stur _ _ _ _ => .STUR
  | .ldur _ _ _ _ => .LDUR
  | .brk => .BREAK
  | .nop => .NOP

/-- The format of a mnemonic's row (R72). -/
def Mnemonic.format : Mnemonic → Format
  | .B => .B
  | .AND | .ADD | .ORR | .SUB | .EOR | .LSR | .LSL | .ASR => .R
  | .ADDI | .SUBI => .I
  | .CBZ | .CBNZ => .CB
  | .MOVZ | .MOVK => .IM
  | .STUR | .LDUR => .D
  | .BREAK => .BREAK
  | .NOP => .NOP

/-- The operand fields of an instruction, as its record carries them (R71). -/
def Instr.fields : Instr → Fields
  | .b offset => .b offset
  | .and rd rn rm shamt => .r rd rn rm shamt
  | .add rd rn rm shamt => .r rd rn rm shamt
  | .addi rd rn imm => .i rd rn imm
  | .orr rd rn rm shamt => .r rd rn rm shamt
  | .cbz rt offset => .cb rt offset
  | .cbnz rt offset => .cb rt offset
  | .sub rd rn rm shamt => .r rd rn rm shamt
  | .subi rd rn imm => .i rd rn imm
  | .movz rd field shiftCode => .im rd field shiftCode
  | .movk rd field shiftCode => .im rd field shiftCode
  | .lsr rd rn rm shamt => .r rd rn rm shamt
  | .lsl rd rn rm shamt => .r rd rn rm shamt
  | .asr rd rn rm shamt => .r rd rn rm shamt
  | .eor rd rn rm shamt => .r rd rn rm shamt
  | .stur rt rn address op2 => .d rt rn address op2
  | .ldur rt rn address op2 => .d rt rn address op2
  | .brk => .none
  | .nop => .none

end Sys2Proof
end

