-- ==== Sys2Proof/WellFormed.lean ====
section
/-! DEFINITION. When an instruction's operand fields fit the widths of their format (00_scope.md R18; 30_encoding.md R63 to
R68). Register numbers fit by their type. The decoder answers well-formed instructions only. -/

namespace Sys2Proof

/-- A signed value that `n` bits of two's complement hold (R11). -/
def fitsSigned (n : Nat) (v : Int) : Bool := decide (-(2 ^ (n - 1)) ≤ v ∧ v < 2 ^ (n - 1))

/-- An unsigned value that `n` bits hold. -/
def fitsUnsigned (n v : Nat) : Bool := decide (v < 2 ^ n)

/-- The operand fields fit their widths: `shamt` 6 bits, the I-immediate 12 signed, the CB offset 19 signed, the B offset 26
signed, `field` 16, `shiftCode` 2, `address` 9, `op2` 2 (R18). -/
def Fields.wellFormed : Fields → Bool
  | .none => true
  | .r _ _ _ shamt => fitsUnsigned 6 shamt
  | .i _ _ imm => fitsSigned 12 imm
  | .cb _ offset => fitsSigned 19 offset
  | .im _ field shiftCode => fitsUnsigned 16 field && fitsUnsigned 2 shiftCode
  | .d _ _ address op2 => fitsUnsigned 9 address && fitsUnsigned 2 op2
  | .b offset => fitsSigned 26 offset
  | .rawData literal => fitsSigned 32 literal

/-- An instruction is well formed when its operand fields are. -/
def Instr.wellFormed (i : Instr) : Bool := i.fields.wellFormed

end Sys2Proof
end

