-- ==== Sys2Proof/Decode.lean ====
section
/-! DEFINITION. The pure part of the decoder (30_encoding.md R60 to R79): bit slices and their extension, the one opcode
classifier, the field extractor, and the two together as `decode`; then the encoder, its inverse (R88). -/

namespace Sys2Proof

/-- `w[lo+len-1 : lo]`, the slice of `len` bits from bit `lo` up (R10). -/
def slice (w : InstrWord) (lo len : Nat) : BitVec len := w.extractLsb' lo len

/-- `sext_n(v)`: the low `n` bits of `v` read as a two's-complement number (R11). -/
def sext (n : Nat) (v : Nat) : Int := (BitVec.ofNat n v).toInt

/-- `zext_n(v)`: the low `n` bits of `v` read as an unsigned number (R11). -/
def zext (n : Nat) (v : Nat) : Nat := (BitVec.ofNat n v).toNat

/-- The register number in the five bits from bit `lo` up (R86). -/
def regAt (w : InstrWord) (lo : Nat) : RegIdx := (slice w lo 5).toFin

/-- The unsigned field of `len` bits from bit `lo` up. -/
def unsignedAt (w : InstrWord) (lo len : Nat) : Nat := zext len (slice w lo len).toNat

/-- The signed field of `len` bits from bit `lo` up. -/
def signedAt (w : InstrWord) (lo len : Nat) : Int := sext len (slice w lo len).toNat

/-- The opcode field of a word, `w[31:21]` (R61). -/
def opcodeOf (w : InstrWord) : OpcodeField := slice w 21 11

/-- The opcode table of R72: the first and last opcode-field value of a row, its mnemonic and its format. -/
def classifierRows : List (Nat × Nat × Mnemonic × Format) :=
  [ (160, 191, .B, .B),
    (1104, 1104, .AND, .R),
    (1112, 1112, .ADD, .R),
    (1160, 1161, .ADDI, .I),
    (1360, 1360, .ORR, .R),
    (1440, 1447, .CBZ, .CB),
    (1448, 1455, .CBNZ, .CB),
    (1624, 1624, .SUB, .R),
    (1672, 1673, .SUBI, .I),
    (1684, 1687, .MOVZ, .IM),
    (1940, 1943, .MOVK, .IM),
    (1690, 1690, .LSR, .R),
    (1691, 1691, .LSL, .R),
    (1692, 1692, .ASR, .R),
    (1872, 1872, .EOR, .R),
    (1984, 1984, .STUR, .D),
    (1986, 1986, .LDUR, .D),
    (2038, 2038, .BREAK, .BREAK),
    (0, 0, .NOP, .NOP) ]

/-- The one classifier: an opcode field to its mnemonic and format, `none` for an unclassified value (R72, R73). -/
def classify (op : OpcodeField) : Option (Mnemonic × Format) :=
  (classifierRows.find? (fun row => decide (row.1 ≤ op.toNat ∧ op.toNat ≤ row.2.1))).map (fun row => row.2.2)

/-- The match value and the mask of each row over the whole word (R74). -/
def rowPattern : Mnemonic → InstrWord × InstrWord
  | .B => (0x14000000#32, 0xFC000000#32)
  | .AND => (0x8A000000#32, 0xFFE00000#32)
  | .ADD => (0x8B000000#32, 0xFFE00000#32)
  | .ADDI => (0x91000000#32, 0xFFC00000#32)
  | .ORR => (0xAA000000#32, 0xFFE00000#32)
  | .CBZ => (0xB4000000#32, 0xFF000000#32)
  | .CBNZ => (0xB5000000#32, 0xFF000000#32)
  | .SUB => (0xCB000000#32, 0xFFE00000#32)
  | .SUBI => (0xD1000000#32, 0xFFC00000#32)
  | .MOVZ => (0xD2800000#32, 0xFF800000#32)
  | .MOVK => (0xF2800000#32, 0xFF800000#32)
  | .LSR => (0xD3400000#32, 0xFFE00000#32)
  | .LSL => (0xD3600000#32, 0xFFE00000#32)
  | .ASR => (0xD3800000#32, 0xFFE00000#32)
  | .EOR => (0xEA000000#32, 0xFFE00000#32)
  | .STUR => (0xF8000000#32, 0xFFE00000#32)
  | .LDUR => (0xF8400000#32, 0xFFE00000#32)
  | .BREAK => (0xFEC00000#32, 0xFFE00000#32)
  | .NOP => (0x00000000#32, 0xFFE00000#32)

/-- The word is of the row: its masked bits are the match value (R74). -/
def selects (mn : Mnemonic) (w : InstrWord) : Bool := w &&& (rowPattern mn).2 == (rowPattern mn).1

/-- The field extractor: a pure, total function of the word and the format tag (R63 to R70, R79). -/
def extractFields (w : InstrWord) : Format → Fields
  | .R => .r (regAt w 0) (regAt w 5) (regAt w 16) (unsignedAt w 10 6)
  | .I => .i (regAt w 0) (regAt w 5) (signedAt w 10 12)
  | .D => .d (regAt w 0) (regAt w 5) (unsignedAt w 12 9) (unsignedAt w 10 2)
  | .B => .b (signedAt w 0 26)
  | .CB => .cb (regAt w 0) (signedAt w 5 19)
  | .IM => .im (regAt w 0) (unsignedAt w 5 16) (unsignedAt w 21 2)
  | .BREAK => .none
  | .NOP => .none
  | .rawData => .rawData (signedAt w 0 32)

/-- The instruction a mnemonic makes of operand fields. NOP and BREAK read no field, so they accept any (a RAW-DATA record
executes as NOP, R163); `none` where the fields are not those of the mnemonic's format, which no decoded record has (DESIGN CHOICE,
log entry 11). -/
def assemble : Mnemonic → Fields → Option Instr
  | .B, .b offset => some (.b offset)
  | .AND, .r rd rn rm shamt => some (.and rd rn rm shamt)
  | .ADD, .r rd rn rm shamt => some (.add rd rn rm shamt)
  | .ADDI, .i rd rn imm => some (.addi rd rn imm)
  | .ORR, .r rd rn rm shamt => some (.orr rd rn rm shamt)
  | .CBZ, .cb rt offset => some (.cbz rt offset)
  | .CBNZ, .cb rt offset => some (.cbnz rt offset)
  | .SUB, .r rd rn rm shamt => some (.sub rd rn rm shamt)
  | .SUBI, .i rd rn imm => some (.subi rd rn imm)
  | .MOVZ, .im rd field shiftCode => some (.movz rd field shiftCode)
  | .MOVK, .im rd field shiftCode => some (.movk rd field shiftCode)
  | .LSR, .r rd rn rm shamt => some (.lsr rd rn rm shamt)
  | .LSL, .r rd rn rm shamt => some (.lsl rd rn rm shamt)
  | .ASR, .r rd rn rm shamt => some (.asr rd rn rm shamt)
  | .EOR, .r rd rn rm shamt => some (.eor rd rn rm shamt)
  | .STUR, .d rt rn address op2 => some (.stur rt rn address op2)
  | .LDUR, .d rt rn address op2 => some (.ldur rt rn address op2)
  | .BREAK, _ => some .brk
  | .NOP, _ => some .nop
  | _, _ => none

/-- Why a word decodes to no instruction. -/
inductive DecodeError where
  /-- The opcode field matches no row of the table (R75); the decoder reports `InvalidOpcode` (R171). -/
  | invalidOpcode (op : OpcodeField)
deriving DecidableEq, Repr

/-- The instruction of a word that stands before any BREAK of the image: classify `w[31:21]`, then extract the fields of the
format; rejected by name where the opcode field is unclassified (R72, R81). -/
def decode (w : InstrWord) : Except DecodeError Instr :=
  match (classify (opcodeOf w)).bind (fun mf => assemble mf.1 (extractFields w mf.2)) with
  | some i => .ok i
  | none => .error (.invalidOpcode (opcodeOf w))

/-- The instruction, or nothing where the word is rejected. -/
def decode? (w : InstrWord) : Option Instr := (decode w).toOption

/-- A register number as its 5-bit field (R86). -/
def regBits (r : RegIdx) : BitVec 5 := BitVec.ofNat 5 r.val

/-- An R-format word: opcode, `rm`, `shamt`, `rn`, `rd` from bit 31 down (R63). -/
def encodeR (op : BitVec 11) (rd rn rm : RegIdx) (shamt : Nat) : InstrWord :=
  op ++ regBits rm ++ BitVec.ofNat 6 shamt ++ regBits rn ++ regBits rd

/-- An I-format word: opcode, immediate, `rn`, `rd` (R64). -/
def encodeI (op : BitVec 10) (rd rn : RegIdx) (imm : Int) : InstrWord :=
  op ++ BitVec.ofInt 12 imm ++ regBits rn ++ regBits rd

/-- A CB-format word: opcode, offset, `rt` (R65). -/
def encodeCB (op : BitVec 8) (rt : RegIdx) (offset : Int) : InstrWord :=
  op ++ BitVec.ofInt 19 offset ++ regBits rt

/-- An IM-format word: opcode, `shiftCode`, `field`, `rd` (R66). -/
def encodeIM (op : BitVec 9) (rd : RegIdx) (field shiftCode : Nat) : InstrWord :=
  op ++ BitVec.ofNat 2 shiftCode ++ BitVec.ofNat 16 field ++ regBits rd

/-- A D-format word: opcode, `address`, `op2`, `rn`, `rt` (R67). -/
def encodeD (op : BitVec 11) (rt rn : RegIdx) (address op2 : Nat) : InstrWord :=
  op ++ BitVec.ofNat 9 address ++ BitVec.ofNat 2 op2 ++ regBits rn ++ regBits rt

/-- A B-format word: opcode, offset (R68). -/
def encodeB (op : BitVec 6) (offset : Int) : InstrWord := op ++ BitVec.ofInt 26 offset

/-- The word of an instruction: its row's fixed bits (R74) and its fields in their places, each truncated to its width
(R88). BREAK and NOP are written with bits 20:0 zero (R78, decision D20; DESIGN CHOICE, log entry 10). -/
def encode : Instr → InstrWord
  | .b offset => encodeB 0b000101 offset
  | .and rd rn rm shamt => encodeR 0b10001010000 rd rn rm shamt
  | .add rd rn rm shamt => encodeR 0b10001011000 rd rn rm shamt
  | .addi rd rn imm => encodeI 0b1001000100 rd rn imm
  | .orr rd rn rm shamt => encodeR 0b10101010000 rd rn rm shamt
  | .cbz rt offset => encodeCB 0b10110100 rt offset
  | .cbnz rt offset => encodeCB 0b10110101 rt offset
  | .sub rd rn rm shamt => encodeR 0b11001011000 rd rn rm shamt
  | .subi rd rn imm => encodeI 0b1101000100 rd rn imm
  | .movz rd field shiftCode => encodeIM 0b110100101 rd field shiftCode
  | .movk rd field shiftCode => encodeIM 0b111100101 rd field shiftCode
  | .lsr rd rn rm shamt => encodeR 0b11010011010 rd rn rm shamt
  | .lsl rd rn rm shamt => encodeR 0b11010011011 rd rn rm shamt
  | .asr rd rn rm shamt => encodeR 0b11010011100 rd rn rm shamt
  | .eor rd rn rm shamt => encodeR 0b11101010000 rd rn rm shamt
  | .stur rt rn address op2 => encodeD 0b11111000000 rt rn address op2
  | .ldur rt rn address op2 => encodeD 0b11111000010 rt rn address op2
  | .brk => 0xFEC00000
  | .nop => 0x00000000

/-- The word the host names by `nbits` bits `w`: every row is one 32-bit word (R60), numbered from its least significant
bit, and the bits above `nbits` are zero. -/
def tableWord (nbits w : Nat) : InstrWord := BitVec.ofNat 32 (w % 2 ^ nbits)

/-- The instruction the decoder reads from an instruction of `nbits` bits whose bits are `w`. -/
def decodeTableWord (nbits w : Nat) : Option Instr := decode? (tableWord nbits w)

end Sys2Proof
end

