-- ==== Sys2Proof/Machine/State.lean ====
section
/-! DEFINITION. The whole state of the core as plain data: the launch's parameters and image, the decoder's state, the
engine's state, and the outputs of a run (10_state.md R20 to R36; 00_scope.md R7, R8). -/

namespace Sys2Proof.Machine

/-- One entry of the program image: a line of input, kept verbatim, with its word where it is well formed (R7). -/
inductive Entry where
  /-- `Word(w)`. -/
  | word (raw : String) (w : InstrWord)
  /-- `Malformed`: a line that is not 32 characters of `0` and `1` (R172). -/
  | malformed (raw : String)
deriving DecidableEq, Repr

/-- A decoded record (R80). -/
structure Record where
  /-- The line, verbatim. -/
  raw : String
  /-- `96 + 4*i` (R82). -/
  address : Nat
  /-- The word; absent for a malformed entry. -/
  bits : Option InstrWord
  /-- The opcode field; 0 for a RAW-DATA word (R79), absent for a malformed entry. -/
  opcodeField : Option OpcodeField
  /-- The mnemonic the decoder found, if it classified the word. -/
  mnemonic : Option Mnemonic
  /-- The format; unset until classified (R62). -/
  format : Option Format
  /-- The operand fields of the format. -/
  fields : Fields
deriving DecidableEq, Repr

/-- The three kinds of diagnostic (R170). -/
inductive DiagKind where
  | invalidOpcode | malformedWord | skippedRecord
deriving DecidableEq, Repr

/-- A diagnostic: its kind and the index of the record concerned (R170). -/
structure Diagnostic where
  kind : DiagKind
  index : Nat
deriving DecidableEq, Repr

/-- The reasons of a `Faulted` status. -/
inductive FaultReason where
  /-- The engine reached a RAW-DATA record under `DATA_EXEC = fault` (R105). -/
  | dataExecuted
deriving DecidableEq, Repr

/-- The engine's status; a run has ended when it is not `running` (R36, R108, R109). -/
inductive Status where
  | running
  | halted
  | outOfBounds
  | refused (mn : Mnemonic)
  | faulted (reason : FaultReason)
deriving DecidableEq, Repr

/-- The phases of a run (R190): the decode pass, then the engine loop. -/
inductive Phase where
  | decoding
  | engine
deriving DecidableEq, Repr

/-- A memory bank: 8 slots of `W` bits (R31). -/
abbrev Bank (width : Nat) := Vector (BitVec width) 8

/-- Data memory: the banks that exist, by key. In canonical form the keys, read as signed numbers, strictly rise; a key that
is not listed has no bank, and that is the only thing an unlisted key means, so no listed entry repeats it (R31, R43). -/
abbrev Memory (width : Nat) := List (BitVec width × Bank width)

/-- One retire event (R110). Register and slot values and keys are the signed numbers the trace shows (R111, R112). -/
structure RetireEvent where
  cycle : Nat
  address : Int
  mnemonic : Mnemonic
  operands : String
  registers : Vector Int 32
  /-- Every existing bank in ascending key order; absent when no bank exists. -/
  memory : Option (List (Int × Vector Int 8))
deriving DecidableEq, Repr

/-- The state of the core. -/
structure State where
  /-- The OPEN parameters, handed over at launch and fixed for the run (R9, R187). -/
  params : Params
  /-- The program image, handed over at launch (R7). -/
  entries : List Entry
  /-- The phase of the run (R190). -/
  phase : Phase
  /-- The decoder has built a BREAK record (R28). -/
  haltSeen : Bool
  /-- The decoder's next entry (R36). -/
  nextEntry : Nat
  /-- The records built so far; after the decode pass, the instruction image (R30, R36). -/
  image : List Record
  /-- The diagnostic log, oldest first (R34). -/
  diag : List Diagnostic
  /-- The general registers `x[0..31]` (R20). -/
  x : Vector (BitVec params.width) 32
  /-- Data memory (R31). -/
  mem : Memory params.width
  /-- The program counter: an instruction index, an unbounded integer (R23). -/
  pc : Int
  /-- The retirement counter (R24). -/
  cycle : Nat
  /-- BREAK has executed (R25). -/
  halted : Bool
  /-- The engine's status (R36). -/
  status : Status
  /-- The retire events emitted so far, oldest first (R8, R110). -/
  trace : List RetireEvent
deriving DecidableEq, Repr

/-- No step of this core ends in a fault: the core has no trap (R176), every diagnostic lets the run go on (R170), and the
ends of a run, `Faulted(DataExecuted)` among them, are values of `Status` in a final state (R108, R175). The type has no
constructor, which is safe: nothing is hidden behind it. -/
inductive Fault
deriving DecidableEq, Repr

/-- Why an instruction is given no meaning. -/
inductive Refusal where
  /-- Raised by an arm of `exec` whose instruction has no meaning yet; safe. No arm raises it: all 19 have their meaning. The
  status `Refused(mn)` of R105 is not this: it is a value of `Status`. -/
  | notModelled (mnemonic : String)
deriving DecidableEq, Repr

/-- The core right after reset: the decoder's reset values (R36, R190) and the engine's (R191), the parameters at the spec's
defaults (R9), and no program handed over yet (R7 with n = 0); the last two are a DESIGN CHOICE (log entries 1 and 2). -/
def State.reset : State where
  params := Config.defaultParams
  entries := []
  phase := .decoding
  haltSeen := false
  nextEntry := 0
  image := []
  diag := []
  x := Vector.replicate 32 0
  mem := []
  pc := 0
  cycle := 1
  halted := false
  status := .running
  trace := []

end Sys2Proof.Machine
end

