-- ==== Sys2Proof/Machine/Operands.lean ====
section
/-! DEFINITION. Operand forms: register reads, the widened immediate, the effective address, the branch target, and the
operand text of the assembler syntax (00_scope.md R12, R13; 20_memory.md R44; 30_encoding.md R85, R90; 41_b_format.md R120). -/

namespace Sys2Proof.Machine

/-- `x[r]`: every register reads what it holds, register 31 too (R13, R21). -/
def State.reg (s : State) (r : RegIdx) : BitVec s.params.width := s.x[r.val]

/-- A signed immediate widened to `W` bits by sign extension (R12, R85). -/
def widen (width : Nat) (imm : Int) : BitVec width := BitVec.ofInt width imm

/-- `EA(rn, address9) = x[rn] + zext_9(address9) * 4`, modulo `2^W` (R44). -/
def effectiveAddress (s : State) (rn : RegIdx) (address : Nat) : BitVec s.params.width :=
  s.reg rn + BitVec.ofNat s.params.width (address * 4)

/-- The record a branch offset names, counted from the branch's own index; the sum never wraps (R120). -/
def branchTarget (s : State) (offset : Int) : Int := s.pc + offset

/-- The index after this one: `pc + 1` (R106). -/
def nextIndex (s : State) : Int := s.pc + 1

/-- The instruction address of index `i`: `96 + 4*i` (R16). -/
def instrAddress (i : Int) : Int := Config.base + Config.stride * i

/-- `R<r>`. -/
def regText (r : RegIdx) : String := "R" ++ toString r.val

/-- `#<v>`, signed decimal. -/
def immText (v : Int) : String := "#" ++ toString v

/-- `R<rd>, R<rn>, R<rm>`: AND, ADD, ORR, SUB, EOR (R90). -/
def aluText (rd rn rm : RegIdx) : String := regText rd ++ ", " ++ regText rn ++ ", " ++ regText rm

/-- `R<rd>, R<rn>, #<shamt>`: LSL, LSR, ASR (R90). -/
def shiftText (rd rn : RegIdx) (shamt : Nat) : String := regText rd ++ ", " ++ regText rn ++ ", " ++ immText shamt

/-- `R<rd>, R<rn>, #<immediate>`: ADDI, SUBI (R90). -/
def immediateText (rd rn : RegIdx) (imm : Int) : String := regText rd ++ ", " ++ regText rn ++ ", " ++ immText imm

/-- `R<rt>, #<offset>`: CBZ, CBNZ (R90). -/
def compareText (rt : RegIdx) (offset : Int) : String := regText rt ++ ", " ++ immText offset

/-- `R<rd>, <field>, LSL <shiftCode>`, the raw 2-bit code: MOVZ, MOVK (R90). -/
def wideText (rd : RegIdx) (field shiftCode : Nat) : String :=
  regText rd ++ ", " ++ toString field ++ ", LSL " ++ toString shiftCode

/-- `R<rt>, [R<rn>, #<address>]`, the raw 9-bit word count: STUR, LDUR (R90). -/
def memoryText (rt rn : RegIdx) (address : Nat) : String :=
  regText rt ++ ", [" ++ regText rn ++ ", " ++ immText address ++ "]"

/-- The operand text of an instruction (R90); empty for BREAK and NOP (R110). -/
def operandText : Instr → String
  | .b offset => immText offset
  | .and rd rn rm _ => aluText rd rn rm
  | .add rd rn rm _ => aluText rd rn rm
  | .addi rd rn imm => immediateText rd rn imm
  | .orr rd rn rm _ => aluText rd rn rm
  | .cbz rt offset => compareText rt offset
  | .cbnz rt offset => compareText rt offset
  | .sub rd rn rm _ => aluText rd rn rm
  | .subi rd rn imm => immediateText rd rn imm
  | .movz rd field shiftCode => wideText rd field shiftCode
  | .movk rd field shiftCode => wideText rd field shiftCode
  | .lsr rd rn _ shamt => shiftText rd rn shamt
  | .lsl rd rn _ shamt => shiftText rd rn shamt
  | .asr rd rn _ shamt => shiftText rd rn shamt
  | .eor rd rn rm _ => aluText rd rn rm
  | .stur rt rn address _ => memoryText rt rn address
  | .ldur rt rn address _ => memoryText rt rn address
  | .brk => ""
  | .nop => ""

/-- A mnemonic as the trace and the disassembly spell it. -/
def mnemonicText : Mnemonic → String
  | .B => "B"
  | .AND => "AND"
  | .ADD => "ADD"
  | .ADDI => "ADDI"
  | .ORR => "ORR"
  | .CBZ => "CBZ"
  | .CBNZ => "CBNZ"
  | .SUB => "SUB"
  | .SUBI => "SUBI"
  | .MOVZ => "MOVZ"
  | .MOVK => "MOVK"
  | .LSR => "LSR"
  | .LSL => "LSL"
  | .ASR => "ASR"
  | .EOR => "EOR"
  | .STUR => "STUR"
  | .LDUR => "LDUR"
  | .BREAK => "BREAK"
  | .NOP => "NOP"

end Sys2Proof.Machine
end

