-- ==== Sys2Proof/Machine/Ops.lean ====
section
/-! DEFINITION. The named operations the meanings are built from: register write, the two memory primitives, diagnostics,
the stop with a status, and retiring an instruction (00_scope.md R13 to R15; 20_memory.md R45, R46; 40_engine_cycle.md R105,
R106, R110). The core takes no exception and has no return from one (60_exceptions.md R176, R177): `State.raise` and
`State.stop` are the two operations R175 leaves in their place. -/

namespace Sys2Proof.Machine

/-- `x[r] <- v` (R13). -/
def State.setReg (s : State) (r : RegIdx) (v : BitVec s.params.width) : State := { s with x := s.x.set r.val v }

/-- A bank as it is created: all 8 slots 0 (R31). -/
def freshBank (width : Nat) : Bank width := Vector.replicate 8 0

/-- The bank at a key, if it exists (R31). -/
def bankAt {width : Nat} : Memory width → BitVec width → Option (Bank width)
  | [], _ => none
  | (k, b) :: rest, a => if k = a then some b else bankAt rest a

/-- The memory with bank `b` at key `a`, in its place in the ascending order of signed keys. -/
def putBank {width : Nat} : Memory width → BitVec width → Bank width → Memory width
  | [], a, b => [(a, b)]
  | (k, c) :: rest, a, b =>
    if k = a then (a, b) :: rest
    else if a.toInt < k.toInt then (a, b) :: (k, c) :: rest
    else (k, c) :: putBank rest a b

/-- What slot 0 of a key without a bank reads as: 0 (R45). -/
def absentSlot (width : Nat) : BitVec width := 0

/-- `MemRead(a, W)`: slot 0 of the bank at `a`, or 0 if there is none; no bank is created (R45). -/
def memRead {width : Nat} (m : Memory width) (a : BitVec width) : BitVec width :=
  match bankAt m a with
  | some b => b[0]
  | none => absentSlot width

/-- `MemWrite(a, W, v)`: create the bank at `a`, all 0, if there is none; then set its slot 0 to `v` (R46). -/
def memWrite {width : Nat} (m : Memory width) (a v : BitVec width) : Memory width :=
  putBank m a (((bankAt m a).getD (freshBank width)).set 0 v)

/-- The canonical form of data memory: keys strictly rising as signed numbers. -/
abbrev Memory.wf {width : Nat} (m : Memory width) : Prop := m.Pairwise (fun p q => p.1.toInt < q.1.toInt)

/-- Load slot 0 of a key. -/
def State.load (s : State) (a : BitVec s.params.width) : BitVec s.params.width := memRead s.mem a

/-- Store to slot 0 of a key. -/
def State.store (s : State) (a v : BitVec s.params.width) : State := { s with mem := memWrite s.mem a v }

/-- `raise Diagnostic(kind, i)`: append to `diag` and change nothing else (R15, R170). -/
def State.raise (s : State) (kind : DiagKind) (i : Nat) : State := { s with diag := s.diag ++ [⟨kind, i⟩] }

/-- The run stops with a status; nothing else changes (R105, R108). -/
def State.stop (s : State) (st : Status) : State := { s with status := st }

/-- `halt`: set the flag `halted` (R15, R25). -/
def State.halt (s : State) : State := { s with halted := true }

/-- The signed values of a register file or of a bank's slots (R12, R111). -/
def signedValues {width n : Nat} (v : Vector (BitVec width) n) : Vector Int n :=
  ⟨(v.toList.map BitVec.toInt).toArray, by simp⟩

/-- The register snapshot: all 32 signed values (R110, R111). -/
def registerSnapshot (s : State) : Vector Int 32 := signedValues s.x

/-- The memory snapshot: every bank with its signed key and its 8 signed slots, in the order of the keys; absent when no
bank exists (R110, R112). -/
def memorySnapshot (s : State) : Option (List (Int × Vector Int 8)) :=
  if s.mem.isEmpty then none else some (s.mem.map (fun p => (p.1.toInt, signedValues p.2)))

/-- The retire event of `i`, taken after its effect and before the advance (R110). -/
def retireEvent (i : Instr) (s : State) : RetireEvent where
  cycle := s.cycle
  address := instrAddress s.pc
  mnemonic := i.mnemonic
  operands := operandText i
  registers := registerSnapshot s
  memory := memorySnapshot s

/-- Retire `i`, its effect done: emit the event, `pc <- npc`, `cycle <- cycle + 1` (R106, R110). -/
def State.retire (s : State) (i : Instr) (npc : Int) : State :=
  { s with trace := s.trace ++ [retireEvent i s], pc := npc, cycle := s.cycle + 1 }

/-- The common meaning of LSR, LSL, ASR, MOVZ and MOVK: under `tracedOnly` the instruction retires and changes nothing
else; under `refuse` the run stops with `Refused(mn)` and nothing retires (R105, decision D6). -/
def incompleteOp (i : Instr) (s : State) : State :=
  match s.params.incompleteOps with
  | .tracedOnly => s.retire i (nextIndex s)
  | .refuse => s.stop (.refused i.mnemonic)

end Sys2Proof.Machine
end

