-- ==== Sys2Proof/Machine/Decoder.lean ====
section
/-! DEFINITION. The decoder unit: from lines of text to entries, from entries to records one entry a step, and the engine
reset that follows the last entry (00_scope.md R7; 20_memory.md R42, R48; 30_encoding.md R80 to R84; 70_reset_and_hazards.md
R190, R191). -/

namespace Sys2Proof.Machine

/-- The characters stripped from the ends of a line: space, tab, line feed, vertical tab, form feed, carriage return
(PRESUMED, log entry 7: the spec does not list them). -/
def isBlank (c : Char) : Bool := c = ' ' || (decide (9 ≤ c.toNat) && decide (c.toNat ≤ 13))

/-- A line without the white space at its two ends (R7). -/
def strip (cs : List Char) : List Char := ((cs.dropWhile isBlank).reverse.dropWhile isBlank).reverse

/-- Characters of `0` and `1`, most significant first, as a number; nothing if any other character occurs. -/
def readBits (cs : List Char) : Option Nat :=
  cs.foldl
    (fun acc c => acc.bind (fun n => if c = '0' then some (2 * n) else if c = '1' then some (2 * n + 1) else none))
    (some 0)

/-- The word of a line: exactly 32 characters of `0` and `1` after stripping, the first of them bit 31 (R7, R42). -/
def wordOfLine (line : String) : Option InstrWord :=
  let cs := strip line.toList
  if cs.length = 32 then (readBits cs).map (BitVec.ofNat 32) else none

/-- The image entry of a line; a line without a word is malformed and still an entry (R7, R172). -/
def Entry.ofLine (line : String) : Entry :=
  match wordOfLine line with
  | some w => .word line w
  | none => .malformed line

/-- The characters of bits `lo+len-1` down to `lo` of a word. -/
def bitsText (w : InstrWord) (lo len : Nat) : String :=
  String.ofList ((List.range len).reverse.map (fun k => if w.getLsbD (lo + k) then '1' else '0'))

/-- The line of a word: 32 characters, the first of them bit 31 (R42). -/
def lineOfWord (w : InstrWord) : String := bitsText w 0 32

/-- The entry of a word, its line written out. -/
def Entry.ofWord (w : InstrWord) : Entry := .word (lineOfWord w) w

/-- The lines of an input text: the text between line breaks, where a final line break starts no further line (D23). That
the line feed breaks lines is PRESUMED (log entry 17). -/
def splitLines : List Char → List Char → List (List Char)
  | acc, [] => if acc.isEmpty then [] else [acc.reverse]
  | acc, c :: rest => if c = '\n' then acc.reverse :: splitLines [] rest else splitLines (c :: acc) rest

/-- The image of an input text, one entry a line (R7, D23). -/
def imageOfText (text : String) : List Entry :=
  (splitLines [] text.toList).map (fun cs => Entry.ofLine (String.ofList cs))

/-- The instruction address of image entry `i` (R82). -/
def entryAddress (i : Nat) : Nat := Config.base + Config.stride * i

/-- The record of entry `i`, given whether an earlier entry was a BREAK (R81). -/
def buildRecord (haltSeen : Bool) (i : Nat) : Entry → Record
  | .malformed raw =>
    { raw := raw, address := entryAddress i, bits := none, opcodeField := none, mnemonic := none,
      format := if haltSeen then some .rawData else none, fields := .none }
  | .word raw w =>
    if haltSeen then
      { raw := raw, address := entryAddress i, bits := some w, opcodeField := some 0, mnemonic := none,
        format := some .rawData, fields := extractFields w .rawData }
    else
      match classify (opcodeOf w) with
      | none =>
        { raw := raw, address := entryAddress i, bits := some w, opcodeField := some (opcodeOf w), mnemonic := none,
          format := none, fields := .none }
      | some (mn, fmt) =>
        { raw := raw, address := entryAddress i, bits := some w, opcodeField := some (opcodeOf w), mnemonic := some mn,
          format := some fmt, fields := extractFields w fmt }

/-- The diagnostics that decoding entry `i` raises, in the decoder's order of tests (R81, R179). -/
def decodeDiag (haltSeen : Bool) (i : Nat) : Entry → List Diagnostic
  | .malformed _ => [⟨.malformedWord, i⟩]
  | .word _ w => if !haltSeen && (classify (opcodeOf w)).isNone then [⟨.invalidOpcode, i⟩] else []

/-- `haltSeen` after a record: set by a record of format BREAK, never cleared (R28, R81). -/
def haltSeenAfter (haltSeen : Bool) (record : Record) : Bool := haltSeen || record.format == some .BREAK

/-- One iteration of the decoder's loop: entry `nextEntry` becomes a record (R81). -/
def decodeEntry (s : State) (e : Entry) : State :=
  let record := buildRecord s.haltSeen s.nextEntry e
  { s with
    image := s.image ++ [record]
    diag := s.diag ++ decodeDiag s.haltSeen s.nextEntry e
    haltSeen := haltSeenAfter s.haltSeen record
    nextEntry := s.nextEntry + 1 }

/-- The whole decode pass as one function: the records of `es`, entry `i` first, given `haltSeen` (R81). -/
def decodeFrom (haltSeen : Bool) (i : Nat) : List Entry → List Record
  | [] => []
  | e :: es =>
    let record := buildRecord haltSeen i e
    record :: decodeFrom (haltSeenAfter haltSeen record) (i + 1) es

/-- The diagnostics of the whole decode pass. -/
def diagsFrom (haltSeen : Bool) (i : Nat) : List Entry → List Diagnostic
  | [] => []
  | e :: es => decodeDiag haltSeen i e ++ diagsFrom (haltSeenAfter haltSeen (buildRecord haltSeen i e)) (i + 1) es

/-- Put the literal of a RAW-DATA record into data memory: the bank at key `96 + 4*i` with slot 0 the literal
(R48). Two addresses that are one key are a DESIGN CHOICE (log entry 14). -/
def preloadRecord {width : Nat} (m : Memory width) (record : Record) : Memory width :=
  match record.fields with
  | .rawData literal => putBank m (BitVec.ofNat width record.address) ((freshBank width).set 0 (widen width literal))
  | _ => m

/-- Data memory at engine reset: empty, or the preload set (R31, R48). -/
def initialMemory (p : Params) (image : List Record) : Memory p.width :=
  if p.preloadData then image.foldl preloadRecord [] else []

/-- Engine reset, after the decode pass (R190, R191). -/
def engineReset (s : State) : State :=
  { s with
    phase := .engine
    x := Vector.replicate 32 0
    mem := initialMemory s.params s.image
    pc := 0
    cycle := 1
    halted := false
    status := .running
    trace := [] }

/-- One step of the decode phase: the next entry, or, after the last, the engine reset (R190). The unit of a
step in this phase is a DESIGN CHOICE (log entry 3). -/
def decodeStep (s : State) : State :=
  match s.entries[s.nextEntry]? with
  | some e => decodeEntry s e
  | none => engineReset s

/-- Launch: the host hands over the parameters and the whole image, and the decoder is reset (R187, R190). -/
def launch (p : Params) (entries : List Entry) : State where
  params := p
  entries := entries
  phase := .decoding
  haltSeen := false
  nextEntry := 0
  image := []
  diag := []
  x := Vector.replicate 32 0
  mem := []
  pc := 0
  cycle := 1
  halted := false
  status := .running
  trace := []

/-- The state of a launch after its decode pass and engine reset: where the engine loop begins (R191). -/
def boot (p : Params) (entries : List Entry) : State :=
  engineReset
    { launch p entries with
      haltSeen := (decodeFrom false 0 entries).any (fun record => record.format == some .BREAK)
      nextEntry := entries.length
      image := decodeFrom false 0 entries
      diag := diagsFrom false 0 entries }

end Sys2Proof.Machine
end

