-- ==== Sys2Proof/Machine/BFormat.lean ====
section
/-! DEFINITION. B, the unconditional branch (41_b_format.md). -/

namespace Sys2Proof.Machine

/-- B: `npc <- pc + off` (R121). -/
def execB (offset : Int) (s : State) : Host.Outcome State Fault Refusal :=
  .next (s.retire (.b offset) (branchTarget s offset))

end Sys2Proof.Machine
end

