-- ==== Sys2Proof/Machine/Flags.lean ====
section
/-! DEFINITION. Conditions. The core has no status flag, no condition code and no predicate (10_state.md R26); the one
condition any instruction computes is the test of a whole register against zero (44_cb_format.md R145). -/

namespace Sys2Proof.Machine

/-- The whole `W`-bit value of `x[rt]` is 0 (R145). -/
def regIsZero (s : State) (rt : RegIdx) : Bool := s.reg rt == 0

/-- The next index of a conditional branch: the target where it is taken, else the record after it (R145). -/
def branchIf (taken : Bool) (s : State) (offset : Int) : Int :=
  if taken then branchTarget s offset else nextIndex s

end Sys2Proof.Machine
end

