-- ==== Sys2Proof/Machine/CBFormat.lean ====
section
/-! DEFINITION. The CB-format: compare a register with zero and branch (44_cb_format.md). -/

namespace Sys2Proof.Machine

/-- CBZ: `npc <- pc + off` if `x[rt] == 0` (R146). -/
def execCbz (rt : RegIdx) (offset : Int) (s : State) : Host.Outcome State Fault Refusal :=
  .next (s.retire (.cbz rt offset) (branchIf (regIsZero s rt) s offset))

/-- CBNZ: `npc <- pc + off` if `x[rt] != 0` (R147). -/
def execCbnz (rt : RegIdx) (offset : Int) (s : State) : Host.Outcome State Fault Refusal :=
  .next (s.retire (.cbnz rt offset) (branchIf (!regIsZero s rt) s offset))

end Sys2Proof.Machine
end

