-- ==== Sys2Proof/Machine/DFormat.lean ====
section
/-! DEFINITION. The D-format: load and store of one whole slot (46_d_format.md). `op2` is carried and read by no rule (R157). -/

namespace Sys2Proof.Machine

/-- STUR: `MemWrite(x[rn] + zext_9(address) * 4, W, x[rt])` (R155). -/
def execStur (rt rn : RegIdx) (address op2 : Nat) (s : State) : Host.Outcome State Fault Refusal :=
  .next ((s.store (effectiveAddress s rn address) (s.reg rt)).retire (.stur rt rn address op2) (nextIndex s))

/-- LDUR: `x[rt] <- MemRead(x[rn] + zext_9(address) * 4, W)`, the address computed before `x[rt]` is written (R156). -/
def execLdur (rt rn : RegIdx) (address op2 : Nat) (s : State) : Host.Outcome State Fault Refusal :=
  .next ((s.setReg rt (s.load (effectiveAddress s rn address))).retire (.ldur rt rn address op2) (nextIndex s))

end Sys2Proof.Machine
end

