-- ==== Sys2Proof/Machine/IFormat.lean ====
section
/-! DEFINITION. The I-format: add and subtract a signed 12-bit immediate (43_i_format.md). -/

namespace Sys2Proof.Machine

/-- ADDI: `x[rd] <- x[rn] + sext_12(imm)`, modulo `2^W` (R141). -/
def execAddi (rd rn : RegIdx) (imm : Int) (s : State) : Host.Outcome State Fault Refusal :=
  .next ((s.setReg rd (s.reg rn + widen s.params.width imm)).retire (.addi rd rn imm) (nextIndex s))

/-- SUBI: `x[rd] <- x[rn] - sext_12(imm)`, modulo `2^W` (R142). -/
def execSubi (rd rn : RegIdx) (imm : Int) (s : State) : Host.Outcome State Fault Refusal :=
  .next ((s.setReg rd (s.reg rn - widen s.params.width imm)).retire (.subi rd rn imm) (nextIndex s))

end Sys2Proof.Machine
end

