-- ==== Sys2Proof/Machine/IMFormat.lean ====
section
/-! DEFINITION. The IM-format: the two wide moves, traced only (45_im_format.md). -/

namespace Sys2Proof.Machine

/-- MOVZ, traced only (R151). -/
def execMovz (rd : RegIdx) (field shiftCode : Nat) (s : State) : Host.Outcome State Fault Refusal :=
  .next (incompleteOp (.movz rd field shiftCode) s)

/-- MOVK, traced only (R152). -/
def execMovk (rd : RegIdx) (field shiftCode : Nat) (s : State) : Host.Outcome State Fault Refusal :=
  .next (incompleteOp (.movk rd field shiftCode) s)

end Sys2Proof.Machine
end

