-- ==== Sys2Proof/Machine/NopBreak.lean ====
section
/-! DEFINITION. NOP and BREAK (47_nop_break_data.md). -/

namespace Sys2Proof.Machine

/-- NOP: no state change but the retirement (R161). -/
def execNop (s : State) : Host.Outcome State Fault Refusal :=
  .next (s.retire .nop (nextIndex s))

/-- BREAK: set `halted`; the event is emitted and `pc` and `cycle` advance as for any instruction (R107, R162). -/
def execBrk (s : State) : Host.Outcome State Fault Refusal :=
  .next (s.halt.retire .brk (nextIndex s))

end Sys2Proof.Machine
end

