-- ==== Sys2Proof/Machine/RFormat.lean ====
section
/-! DEFINITION. The R-format: the five ALU instructions and the three traced-only shifts (42_r_format.md). -/

namespace Sys2Proof.Machine

/-- The shared shape of the ALU rows: write the result, computed from the old registers, to `rd`, and retire (R125). -/
def aluWrite (i : Instr) (rd : RegIdx) (s : State) (v : BitVec s.params.width) : State :=
  (s.setReg rd v).retire i (nextIndex s)

/-- AND: `x[rd] <- x[rn] & x[rm]` (R126). -/
def execAnd (rd rn rm : RegIdx) (shamt : Nat) (s : State) : Host.Outcome State Fault Refusal :=
  .next (aluWrite (.and rd rn rm shamt) rd s (s.reg rn &&& s.reg rm))

/-- ADD: `x[rd] <- x[rn] + x[rm]`, modulo `2^W` (R127). -/
def execAdd (rd rn rm : RegIdx) (shamt : Nat) (s : State) : Host.Outcome State Fault Refusal :=
  .next (aluWrite (.add rd rn rm shamt) rd s (s.reg rn + s.reg rm))

/-- ORR: `x[rd] <- x[rn] | x[rm]` (R128). -/
def execOrr (rd rn rm : RegIdx) (shamt : Nat) (s : State) : Host.Outcome State Fault Refusal :=
  .next (aluWrite (.orr rd rn rm shamt) rd s (s.reg rn ||| s.reg rm))

/-- SUB: `x[rd] <- x[rm] - x[rn]`, second operand minus first (R129). -/
def execSub (rd rn rm : RegIdx) (shamt : Nat) (s : State) : Host.Outcome State Fault Refusal :=
  .next (aluWrite (.sub rd rn rm shamt) rd s (s.reg rm - s.reg rn))

/-- EOR: `x[rd] <- x[rn] ^ x[rm]` (R130). -/
def execEor (rd rn rm : RegIdx) (shamt : Nat) (s : State) : Host.Outcome State Fault Refusal :=
  .next (aluWrite (.eor rd rn rm shamt) rd s (s.reg rn ^^^ s.reg rm))

/-- LSR, traced only (R131). -/
def execLsr (rd rn rm : RegIdx) (shamt : Nat) (s : State) : Host.Outcome State Fault Refusal :=
  .next (incompleteOp (.lsr rd rn rm shamt) s)

/-- LSL, traced only (R132). -/
def execLsl (rd rn rm : RegIdx) (shamt : Nat) (s : State) : Host.Outcome State Fault Refusal :=
  .next (incompleteOp (.lsl rd rn rm shamt) s)

/-- ASR, traced only (R133). -/
def execAsr (rd rn rm : RegIdx) (shamt : Nat) (s : State) : Host.Outcome State Fault Refusal :=
  .next (incompleteOp (.asr rd rn rm shamt) s)

end Sys2Proof.Machine
end

