-- ==== Sys2Proof/Machine/Dispatch.lean ====
section
/-! DEFINITION. The effect of each mnemonic: one arm per row of the opcode table (40_engine_cycle.md R103). -/

namespace Sys2Proof.Machine

def exec (i : Instr) (s : State) : Host.Outcome State Fault Refusal :=
  match i with
  | .b offset => Sys2Proof.Machine.execB offset s
  | .and rd rn rm shamt => Sys2Proof.Machine.execAnd rd rn rm shamt s
  | .add rd rn rm shamt => Sys2Proof.Machine.execAdd rd rn rm shamt s
  | .addi rd rn imm => Sys2Proof.Machine.execAddi rd rn imm s
  | .orr rd rn rm shamt => Sys2Proof.Machine.execOrr rd rn rm shamt s
  | .cbz rt offset => Sys2Proof.Machine.execCbz rt offset s
  | .cbnz rt offset => Sys2Proof.Machine.execCbnz rt offset s
  | .sub rd rn rm shamt => Sys2Proof.Machine.execSub rd rn rm shamt s
  | .subi rd rn imm => Sys2Proof.Machine.execSubi rd rn imm s
  | .movz rd field shiftCode => Sys2Proof.Machine.execMovz rd field shiftCode s
  | .movk rd field shiftCode => Sys2Proof.Machine.execMovk rd field shiftCode s
  | .lsr rd rn rm shamt => Sys2Proof.Machine.execLsr rd rn rm shamt s
  | .lsl rd rn rm shamt => Sys2Proof.Machine.execLsl rd rn rm shamt s
  | .asr rd rn rm shamt => Sys2Proof.Machine.execAsr rd rn rm shamt s
  | .eor rd rn rm shamt => Sys2Proof.Machine.execEor rd rn rm shamt s
  | .stur rt rn address op2 => Sys2Proof.Machine.execStur rt rn address op2 s
  | .ldur rt rn address op2 => Sys2Proof.Machine.execLdur rt rn address op2 s
  | .brk => Sys2Proof.Machine.execBrk s
  | .nop => Sys2Proof.Machine.execNop s

end Sys2Proof.Machine
end

