-- ==== Sys2Proof/Machine/Engine.lean ====
section
/-! DEFINITION. The engine's loop around the effects: fetch, classify, skip, the policy stop on data, and the one iteration
that puts them in order (40_engine_cycle.md R100 to R108; 60_exceptions.md R179). -/

namespace Sys2Proof.Machine

/-- Fetch by index; nothing outside `0..n-1` (R101, R108). -/
def fetch (s : State) : Option Record := if 0 ≤ s.pc then s.image[s.pc.toNat]? else none

/-- The engine's class of a record: the one classifier on its opcode field, unclassified where that is absent (R102). -/
def engineClass (record : Record) : Option (Mnemonic × Format) := record.opcodeField.bind classify

/-- The instruction the engine performs for a record: its class's mnemonic with the record's own fields. -/
def engineInstr (record : Record) : Option Instr := (engineClass record).bind (fun mf => assemble mf.1 record.fields)

/-- Skip a record that is not executed: one diagnostic, `pc <- pc + 1`, nothing else (R104). -/
def skipRecord (s : State) : State := { s.raise .skippedRecord s.pc.toNat with pc := nextIndex s }

/-- The stop of `DATA_EXEC = fault` applies to this record (R105). -/
def dataStops (s : State) (record : Record) : Bool := record.format == some .rawData && s.params.dataExec == .fault

/-- The part of an iteration that has a record: skip it, stop on it, or perform it (R100, R105). The stop of
`INCOMPLETE_OPS = refuse` comes after this one and is in the five instructions' own meanings. -/
def runRecord (record : Record) (s : State) : Host.Outcome State Fault Refusal :=
  match engineInstr record with
  | none => .next (skipRecord s)
  | some i => if dataStops s record then .next (s.stop (.faulted .dataExecuted)) else exec i s

/-- One iteration of the engine's loop, its tests in the order of R179: `halted`, the bounds, then the record (R100). After
the run has ended there is no iteration, and the final state stays as it is (R109, R186; DESIGN CHOICE, log entry 4). -/
def engineStep (s : State) : Host.Outcome State Fault Refusal :=
  if s.status ≠ .running then .next s
  else if s.halted then .next (s.stop .halted)
  else
    match fetch s with
    | none => .next (s.stop .outOfBounds)
    | some record => runRecord record s

/-- One step of the core: a decode-phase step or an engine-phase step (R190). -/
def coreStep (s : State) : Host.Outcome State Fault Refusal :=
  match s.phase with
  | .decoding => .next (decodeStep s)
  | .engine => engineStep s

/-- The core with the one-word program `e` decoded as its image and the engine about to fetch it; registers, memory, `cycle`
and the outputs stay as they are (DESIGN CHOICE, log entry 1). -/
def loadWord (s : State) (e : Entry) : State :=
  let t := decodeEntry { s with entries := [e], haltSeen := false, nextEntry := 0, image := [] } e
  { t with phase := .engine, pc := 0, halted := false, status := .running }

end Sys2Proof.Machine
end

