-- ==== Sys2Proof/Machine/Step.lean ====
section
/-! DEFINITION. The step of the core, and the state in which a given word is what the step fetches next. -/

namespace Sys2Proof.Machine

/-- One step: one entry of the decode pass, the engine reset, or one iteration of the engine's loop (R100, R190, R201). -/
def step (s : State) : Host.Outcome State Fault Refusal := coreStep s

/-- `s` with the instruction of `nbits` bits `w` as its whole loaded program, its engine about to fetch it. -/
def State.withFetchWord (s : State) (nbits w : Nat) : State := loadWord s (Entry.ofWord (tableWord nbits w))

end Sys2Proof.Machine
end

