-- ==== Sys2Proof/Machine/Text.lean ====
section
/-! DEFINITION. The two texts made from the core's outputs: the disassembly line of a record (30_encoding.md R92) and the
trace text of a retire event (40_engine_cycle.md R111 to R113). Both only read: they change no state (R93). -/

namespace Sys2Proof.Machine

/-- The sub-fields of a format's raw bits, as (lowest bit, length) from bit 31 down; `none` where the 32 characters stand
ungrouped (R92). -/
def bitGroups : Format → Option (List (Nat × Nat))
  | .R => some [(21, 11), (16, 5), (10, 6), (5, 5), (0, 5)]
  | .I => some [(22, 10), (10, 12), (5, 5), (0, 5)]
  | .CB => some [(24, 8), (5, 19), (0, 5)]
  | .IM => some [(23, 9), (21, 2), (5, 16), (0, 5)]
  | .D => some [(21, 11), (12, 9), (10, 2), (5, 5), (0, 5)]
  | .B => some [(26, 6), (0, 26)]
  | .BREAK => none
  | .NOP => none
  | .rawData => none

/-- Texts with a separator between each two. -/
def joinText (sep : String) : List String → String
  | [] => ""
  | [t] => t
  | t :: u :: rest => t ++ sep ++ joinText sep (u :: rest)

/-- The grouped raw-bit string of a word in a format (R92). -/
def groupedBits (w : InstrWord) (fmt : Format) : String :=
  match bitGroups fmt with
  | some groups => joinText " " (groups.map (fun g => bitsText w g.1 g.2))
  | none => bitsText w 0 32

/-- The disassembly line of a record, tab-separated: grouped bits, address, mnemonic and operands; for BREAK and NOP the
bits, the address and the mnemonic; for RAW-DATA the bits, the address and the literal; for any other record the raw text
and the address (R92). -/
def disassemblyLine (record : Record) : String :=
  match record.bits, record.format, record.mnemonic, record.fields with
  | some w, some .rawData, _, .rawData literal =>
    joinText "\t" [groupedBits w .rawData, toString record.address, toString literal]
  | some w, some fmt, some mn, fields =>
    match assemble mn fields with
    | some .brk => joinText "\t" [groupedBits w fmt, toString record.address, mnemonicText mn]
    | some .nop => joinText "\t" [groupedBits w fmt, toString record.address, mnemonicText mn]
    | some i => joinText "\t" [groupedBits w fmt, toString record.address, mnemonicText mn, operandText i]
    | none => joinText "\t" [record.raw, toString record.address]
  | _, _, _, _ => joinText "\t" [record.raw, toString record.address]

/-- The disassembly of an image: one line per record (R92). -/
def disassembly (image : List Record) : List String := image.map disassemblyLine

/-- One row of the register dump: `r<start>:` and 8 values (R111). -/
def registerRow (e : RetireEvent) (start : Nat) : String :=
  joinText "\t" (("r" ++ toString start ++ ":") :: ((e.registers.toList.drop start).take 8).map (fun v => toString v))

/-- One row of the memory dump: the key, a colon, and the 8 slots (R112, decision D17). -/
def bankRow (row : Int × Vector Int 8) : String :=
  joinText "\t" ((toString row.1 ++ ":") :: row.2.toList.map (fun v => toString v))

/-- The lines of one retire event (R113, with the details of decision D17; DESIGN CHOICE beyond those, log entry 16). -/
def traceLines (e : RetireEvent) : List String :=
  [joinText "\t" ["Cycle:" ++ toString e.cycle, toString e.address, mnemonicText e.mnemonic, e.operands], "registers:"]
    ++ [0, 8, 16, 24].map (registerRow e)
    ++ (match e.memory with
        | none => []
        | some rows => "data:" :: rows.map bankRow)
    ++ ["============"]

end Sys2Proof.Machine
end

