-- ==== Sys2Proof/Safety.lean ====
section
/-! DEFINITION. The terms claims are stated in: the signed views of registers and banks, what a run is and how it ends, the
parts of the state an instruction leaves alone, what retiring is, and the invariant of the core. -/

namespace Sys2Proof.Machine

/-- The width `W` of the machine. -/
def State.width (s : State) : Nat := s.params.width

/-- The signed value of `x[r]` (R12, R20). -/
def State.regVal (s : State) (r : RegIdx) : Int := (s.reg r).toInt

/-- The 8 signed slots of the bank whose key is `key` (modulo `2^W`), if it exists (R31). -/
def State.slots (s : State) (key : Int) : Option (Vector Int 8) :=
  (bankAt s.mem (BitVec.ofInt s.params.width key)).map signedValues

/-- The signed value a load of `key` gives: slot 0, or 0 where there is no bank (R45). -/
def State.loadVal (s : State) (key : Int) : Int := (s.load (BitVec.ofInt s.params.width key)).toInt

/-- The signed value of the effective address of STUR and LDUR (R44). -/
def State.eaVal (s : State) (rn : RegIdx) (address : Nat) : Int := (effectiveAddress s rn address).toInt

/-- A run has ended when its status is not `Running` (R109). -/
def Ended (s : State) : Prop := s.status ≠ .running

/-- The clean end of a run: `Halted` (R108). -/
def CleanEnd (s : State) : Prop := s.status = .halted

/-- The engine is in its loop and the next loop test lets it fetch (R100). -/
def Active (s : State) : Prop := s.phase = .engine ∧ s.status = .running ∧ s.halted = false

/-- `k` steps of the core lead from `s` to `t`. -/
def Steps (k : Nat) (s t : State) : Prop := Host.Core.run Sys2Proof.core k s = .next t

/-- The states a launched core passes through. -/
inductive Reachable (p : Params) (entries : List Entry) : State → Prop where
  | start : Reachable p entries (launch p entries)
  | step {s t : State} (before : Reachable p entries s) (moves : step s = .next t) : Reachable p entries t

/-- Everything the decoder owns and the launch fixed is unchanged: parameters, entries, phase, decoder state, image. -/
def SameProgram (s t : State) : Prop :=
  t.params = s.params ∧ t.entries = s.entries ∧ t.phase = s.phase ∧ t.haltSeen = s.haltSeen ∧
    t.nextEntry = s.nextEntry ∧ t.image = s.image

/-- Every general register is unchanged. -/
def SameRegs (s t : State) : Prop := ∀ r, t.regVal r = s.regVal r

/-- Every general register but `rd` is unchanged. -/
def SameRegsBut (rd : RegIdx) (s t : State) : Prop := ∀ r, r ≠ rd → t.regVal r = s.regVal r

/-- Every key has the bank it had, with the same 8 slots, or still has none. -/
def SameMemory (s t : State) : Prop := ∀ key, t.slots key = s.slots key

/-- `t` is `s` after `i` retired with `npc` as the next index: `pc` and `cycle` have advanced, and one event was emitted,
with `cycle` and `pc` as they were and the registers and banks as they are after the effect (R106, R110). -/
def RetiredTo (i : Instr) (npc : Int) (s t : State) : Prop :=
  t.pc = npc ∧ t.cycle = s.cycle + 1 ∧
    ∃ e : RetireEvent, t.trace = s.trace ++ [e] ∧ e.cycle = s.cycle ∧ e.address = 96 + 4 * s.pc ∧
      e.mnemonic = i.mnemonic ∧ e.operands = operandText i ∧ (∀ r : RegIdx, e.registers[r.val] = t.regVal r) ∧
      e.memory = memorySnapshot t

/-- Only `status` differs, and it is `st`: what a stop leaves (R105). -/
def StoppedAs (st : Status) (s t : State) : Prop :=
  t.status = st ∧ SameProgram s t ∧ SameRegs s t ∧ SameMemory s t ∧ t.pc = s.pc ∧ t.cycle = s.cycle ∧
    t.halted = s.halted ∧ t.diag = s.diag ∧ t.trace = s.trace

/-- `t` is `s` after its record was skipped: `pc` one further, one `SkippedRecord` for the index, nothing else (R104). -/
def SkippedTo (s t : State) : Prop :=
  t.pc = s.pc + 1 ∧ t.diag = s.diag ++ [⟨.skippedRecord, s.pc.toNat⟩] ∧ t.cycle = s.cycle ∧ t.trace = s.trace ∧
    t.halted = s.halted ∧ t.status = s.status ∧ SameRegs s t ∧ SameMemory s t ∧ SameProgram s t

/-- Where `s` is in the loop and the instruction left `pc` outside the image in `t`, the next loop test stops the run (R108). -/
def OutOfBoundsNext (s t : State) : Prop :=
  Active s → t.pc < 0 ∨ (s.image.length : Int) ≤ t.pc → ∃ u, step t = .next u ∧ StoppedAs .outOfBounds t u

/-- The flag, the status and the diagnostics are unchanged: what every effect but BREAK's leaves (R103). -/
def SameControl (s t : State) : Prop := t.halted = s.halted ∧ t.status = s.status ∧ t.diag = s.diag

/-- A record as the decoder builds it: the record of some entry, at its index, under some `haltSeen` (R81). -/
def Record.built (i : Nat) (record : Record) : Prop := ∃ haltSeen entry, record = buildRecord haltSeen i entry

/-- The invariant of the core over every launch with `W ≥ 32`. -/
structure State.Inv (s : State) : Prop where
  /-- `W` is at least 32 (D1). -/
  width_ok : s.params.wf
  /-- Data memory is in its canonical form, the model's (DEDUCED, log entry 5). -/
  mem_wf : Memory.wf s.mem
  /-- Slots 1 to 7 of every bank are 0 (R32). -/
  upper_slots_zero : ∀ p ∈ s.mem, ∀ (j : Nat) (h : j < 8), j ≠ 0 → p.2[j] = 0
  /-- The image is what the decode pass built so far (R81, R84). -/
  image_decoded : s.image = decodeFrom false 0 (s.entries.take s.nextEntry)
  /-- `haltSeen` says whether a BREAK record has been built (R28). -/
  haltSeen_iff : s.haltSeen = s.image.any (fun record => record.format == some .BREAK)
  /-- The decoder is within the image, and at its end once the engine runs (R194). -/
  decoder_within : s.nextEntry ≤ s.entries.length
  decoder_done : s.phase = .engine → s.nextEntry = s.entries.length
  /-- `cycle` counts the retired instructions from 1 (R24). -/
  cycle_counts : s.cycle = s.trace.length + 1
  /-- While decoding, the engine's trace, status and flag stand at their reset values: the model's choice, since the spec does
  not say what the engine holds before its reset (DESIGN CHOICE, log entry 3). -/
  decoding_idle : s.phase = .decoding → s.trace = [] ∧ s.status = .running ∧ s.halted = false

end Sys2Proof.Machine
end

