-- ==== Sys2Proof/Certificates/Slice0/Obligations.lean ====
section
/-! DEFINITION. The statements for the provers. They quantify over every parameter value of R9, over every state, and over
every operand, unless a hypothesis says otherwise. -/

open Sys2Proof Sys2Proof.Machine

/-! Encoding and the decoder's pure part. -/

/-- R11: `sext_N` and `zext_N` of any number, and a signed value taken into `W`-bit arithmetic. -/
def Obligations.ExtensionReadsTwosComplement : Prop :=
  ∀ n v : Nat, 0 < n →
    sext n v = ((v % 2 ^ n : Nat) : Int) - 2 ^ n * (if v.testBit (n - 1) then 1 else 0) ∧
      -(2 ^ (n - 1)) ≤ sext n v ∧ sext n v ≤ 2 ^ (n - 1) - 1 ∧ zext n v = v % 2 ^ n ∧
      ∀ width, (widen width (sext n v)).toInt = (sext n v).bmod (2 ^ width)

/-- R87: the sign-extension round trip at the four widths of the formats. -/
def Obligations.SignExtensionRoundTrips : Prop :=
  ∀ w : InstrWord, ∀ k ∈ [12, 19, 26, 32], sext k w.toNat % 2 ^ k = ((w.toNat % 2 ^ k : Nat) : Int)

/-- R73: at most one row matches a value, 72 of the 2048 values are classified and 1976 are not. (That the engine
uses the same classifier is `EngineClassAgreesWithTheDecoder`.) -/
def Obligations.ClassifierRowsAreDisjoint : Prop :=
  (∀ n < 2048, (classifierRows.filter (fun row => decide (row.1 ≤ n ∧ n ≤ row.2.1))).length ≤ 1) ∧
    ((List.range 2048).filter (fun n => (classify (BitVec.ofNat 11 n)).isSome)).length = 72 ∧
    ((List.range 2048).filter (fun n => (classify (BitVec.ofNat 11 n)).isNone)).length = 1976

/-- R75: the unclassified opcode-field values are exactly the listed ones; a word with one of them, before any BREAK, is
rejected by the decoder by name, reported once, and makes a record without a format. -/
def Obligations.UnclassifiedValuesAreTheListed : Prop :=
  ∀ w : InstrWord,
    (decode w = .error (.invalidOpcode (opcodeOf w)) ↔
      ∃ range ∈ [(1, 159), (192, 1103), (1105, 1111), (1113, 1159), (1162, 1359), (1361, 1439), (1456, 1623),
          (1625, 1671), (1674, 1683), (1688, 1689), (1693, 1871), (1873, 1939), (1944, 1983), (1985, 1985),
          (1987, 2037), (2039, 2047)],
        range.1 ≤ w.toNat / 2 ^ 21 ∧ w.toNat / 2 ^ 21 ≤ range.2) ∧
      (decode w = .error (.invalidOpcode (opcodeOf w)) → ∀ raw i,
        decodeDiag false i (.word raw w) = [⟨.invalidOpcode, i⟩] ∧
          (buildRecord false i (.word raw w)).format = none ∧ (buildRecord false i (.word raw w)).bits = some w)

/-- R74: a row's match and mask select exactly the words its opcode-field range selects. -/
def Obligations.MaskAndMatchSelectTheRow : Prop :=
  ∀ (w : InstrWord) (mn : Mnemonic), selects mn w = true ↔ classify (opcodeOf w) = some (mn, mn.format)

/-- R63 to R68: every operand field is the slice of the word that the layout table gives it. -/
def Obligations.FieldsAreTheSlicesOfTheWord : Prop :=
  ∀ w : InstrWord, ∃ rd rn rm : RegIdx,
    rd.val = w.toNat % 32 ∧ rn.val = w.toNat / 2 ^ 5 % 32 ∧ rm.val = w.toNat / 2 ^ 16 % 32 ∧
      extractFields w .R = .r rd rn rm (w.toNat / 2 ^ 10 % 64) ∧
      extractFields w .I = .i rd rn ((w.toNat / 2 ^ 10 % 2 ^ 12 : Nat) - (if w.getLsbD 21 then 2 ^ 12 else 0)) ∧
      extractFields w .CB = .cb rd ((w.toNat / 2 ^ 5 % 2 ^ 19 : Nat) - (if w.getLsbD 23 then 2 ^ 19 else 0)) ∧
      extractFields w .IM = .im rd (w.toNat / 2 ^ 5 % 2 ^ 16) (w.toNat / 2 ^ 21 % 4) ∧
      extractFields w .D = .d rd rn (w.toNat / 2 ^ 12 % 2 ^ 9) (w.toNat / 2 ^ 10 % 4) ∧
      extractFields w .B = .b ((w.toNat % 2 ^ 26 : Nat) - (if w.getLsbD 25 then 2 ^ 26 else 0))

/-- R88: decode after encode returns the same instruction, for every field value within its range. -/
def Obligations.DecodeOfEncodeIsTheInstruction : Prop :=
  ∀ i : Instr, i.wellFormed = true → decode (encode i) = .ok i

/-- R88, R76: encode after decode returns the word, but for NOP and BREAK, whose bits 20:0 are not read and come back 0:
that the encoder writes them as 0 is the model's choice (log entry 10). -/
def Obligations.EncodeOfDecodeIsTheWord : Prop :=
  ∀ (w : InstrWord) (i : Instr), decode w = .ok i →
    encode i = if i = .nop ∨ i = .brk then w &&& 0xFFE00000#32 else w

/-- R88: the row's match value, and the two formulas the rule writes out. -/
def Obligations.EncodingOrsFieldsIntoTheMatch : Prop :=
  (∀ i : Instr, selects i.mnemonic (encode i) = true) ∧
    (∀ (rd rn : RegIdx) (imm : Int), encode (.addi rd rn imm) =
      (0x91000000#32 ||| (BitVec.ofInt 32 imm &&& 0xFFF#32) <<< 10 ||| BitVec.ofNat 32 rn.val <<< 5 |||
        BitVec.ofNat 32 rd.val)) ∧
    ∀ (rt : RegIdx) (offset : Int), encode (.cbnz rt offset) =
      (0xB5000000#32 ||| (BitVec.ofInt 32 offset &&& 0x7FFFF#32) <<< 5 ||| BitVec.ofNat 32 rt.val)

/-- Words written out from the spec's encodings, one at least per format, decode to what they stand for (R121, R146, and the
vectors V19 and V21 to V33). -/
def Obligations.SpecWordsDecodeAsWritten : Prop :=
  decodeTableWord 32 0x17FFFFFE = some (.b (-2)) ∧ decodeTableWord 32 0x8B02FC23 = some (.add 3 1 2 63) ∧
    decodeTableWord 32 0x91200001 = some (.addi 1 0 (-2048)) ∧ decodeTableWord 32 0xB4000060 = some (.cbz 0 3) ∧
    decodeTableWord 32 0xD2DFFFE1 = some (.movz 1 65535 2) ∧ decodeTableWord 32 0xF8500023 = some (.ldur 3 1 256 0) ∧
    decodeTableWord 32 0xF8000C41 = some (.stur 1 2 0 3) ∧ decodeTableWord 32 0xFEDFFFFF = some .brk ∧
    decodeTableWord 32 0x001FFFFF = some .nop ∧ decodeTableWord 32 0xFFFFFFFF = none

/-- R42, D23: the line of a word is 32 characters, the first of them bit 31, and it is read back as that word, with white space
around it too. Which characters are white space is PRESUMED (log entry 7); that the entry keeps the whole line, its white space
included, is the model's reading of R80 and R81 (DEDUCED, log entry 8). -/
def Obligations.LineOfWordIsReadMostSignificantFirst : Prop :=
  ∀ w : InstrWord, (lineOfWord w).toList.length = 32 ∧
    (∀ k < 32, (lineOfWord w).toList[k]? = some (if w.getLsbD (31 - k) then '1' else '0')) ∧
    ∀ before after : List Char, before.all isBlank = true → after.all isBlank = true →
      Entry.ofLine (String.ofList (before ++ (lineOfWord w).toList ++ after)) =
        .word (String.ofList (before ++ (lineOfWord w).toList ++ after)) w

/-- R7, R172: a line is malformed exactly when, stripped, it is not 32 characters of `0` and `1`; a malformed line is kept
verbatim (R172). That the entry of a word keeps its whole line too, white space included, is the model's reading of R80 and R81
(DEDUCED, log entry 8); which characters are stripped is PRESUMED (log entry 7). -/
def Obligations.OtherLinesAreMalformed : Prop :=
  ∀ line : String,
    (Entry.ofLine line = .malformed line ↔
      ¬ ((strip line.toList).length = 32 ∧ ∀ c ∈ strip line.toList, c = '0' ∨ c = '1')) ∧
      (Entry.ofLine line ≠ .malformed line → ∃ w, Entry.ofLine line = .word line w)

/-! The decoder's sequential part. -/

/-- R81: what one entry becomes, in the three cases of the loop. -/
def Obligations.EntryBecomesItsRecord : Prop :=
  ∀ (haltSeen : Bool) (i : Nat) (raw : String) (w : InstrWord),
    buildRecord haltSeen i (.malformed raw) =
        ⟨raw, 96 + 4 * i, none, none, none, if haltSeen then some .rawData else none, .none⟩ ∧
      buildRecord true i (.word raw w) =
        ⟨raw, 96 + 4 * i, some w, some 0, none, some .rawData, .rawData w.toInt⟩ ∧
      (∀ j, decode w = .ok j → buildRecord false i (.word raw w) =
        ⟨raw, 96 + 4 * i, some w, some (opcodeOf w), some j.mnemonic, some j.mnemonic.format, j.fields⟩) ∧
      (∀ e, decode w = .error e → buildRecord false i (.word raw w) =
        ⟨raw, 96 + 4 * i, some w, some (opcodeOf w), none, none, .none⟩)

/-- R190, R191: from launch, one step an entry and one step more for the engine reset lead to the decoded image with the
engine at its reset values. That one step handles one entry is the model's choice (DESIGN CHOICE, log entry 3). -/
def Obligations.LaunchBootsInOneStepPerEntry : Prop :=
  ∀ (p : Params) (entries : List Entry), Steps (entries.length + 1) (launch p entries) (boot p entries)

/-- R191: the state after engine reset. -/
def Obligations.EngineResetLeavesTheStatedValues : Prop :=
  ∀ (p : Params) (entries : List Entry),
    (∀ r, (boot p entries).regVal r = 0) ∧ (boot p entries).pc = 0 ∧ (boot p entries).cycle = 1 ∧
      (boot p entries).halted = false ∧ (boot p entries).status = .running ∧
      (p.preloadData = false → ∀ key, (boot p entries).slots key = none) ∧
      (boot p entries).diag = diagsFrom false 0 entries ∧ (boot p entries).image = decodeFrom false 0 entries ∧
      (boot p entries).trace = []

/-- The values the spec gives reset, at the host's `State.reset`. That it stands at the default parameters and with no program
is the model's choice (DESIGN CHOICE, log entries 1 and 2). -/
def Obligations.ResetStateHoldsTheStatedValues : Prop :=
  (∀ r, State.reset.regVal r = 0) ∧ (∀ key, State.reset.slots key = none) ∧ State.reset.pc = 0 ∧
    State.reset.cycle = 1 ∧ State.reset.halted = false ∧ State.reset.haltSeen = false ∧ State.reset.nextEntry = 0 ∧
    State.reset.image = [] ∧ State.reset.diag = [] ∧ State.reset.status = .running ∧
    State.reset.params = ⟨64, false, .tracedOnly, .asNop⟩

/-- R82: record `i` of an image of `n` entries has address `96 + 4*i`, whatever the entry is, and there are `n` records. -/
def Obligations.RecordAddressesCountFromNinetySix : Prop :=
  ∀ entries : List Entry, (decodeFrom false 0 entries).length = entries.length ∧
    ∀ (i : Nat) (record : Record), (decodeFrom false 0 entries)[i]? = some record → record.address = 96 + 4 * i

/-- R83: a record is RAW-DATA exactly when an earlier one is BREAK; then it is never opcode-decoded, and its literal is the
word read as a signed number. -/
def Obligations.RecordsAfterBreakAreRawData : Prop :=
  ∀ (entries : List Entry) (j : Nat) (record : Record), (decodeFrom false 0 entries)[j]? = some record →
    (record.format = some .rawData ↔
      ∃ i < j, ∃ earlier, (decodeFrom false 0 entries)[i]? = some earlier ∧ earlier.format = some .BREAK) ∧
      (record.format = some .rawData → record.mnemonic = none ∧
        ∀ raw w, entries[j]? = some (.word raw w) → record.opcodeField = some 0 ∧ record.fields = .rawData w.toInt) ∧
      (record.format = some .BREAK ↔
        (∀ i < j, ∀ earlier, (decodeFrom false 0 entries)[i]? = some earlier → earlier.format ≠ some .BREAK) ∧
          ∃ raw w, entries[j]? = some (.word raw w) ∧ (opcodeOf w).toNat = 2038)

/-- R171, R172: the decode pass reports exactly the malformed entries, and the unclassified words that no BREAK precedes. -/
def Obligations.DecodePassReportsExactlyTheBadEntries : Prop :=
  ∀ (entries : List Entry) (kind : DiagKind) (i : Nat),
    (⟨kind, i⟩ : Diagnostic) ∈ diagsFrom false 0 entries ↔
      (kind = .malformedWord ∧ ∃ raw, entries[i]? = some (.malformed raw)) ∨
        (kind = .invalidOpcode ∧ ∃ raw w, entries[i]? = some (.word raw w) ∧ classify (opcodeOf w) = none ∧
          ∀ j < i, ∀ raw' w', entries[j]? = some (.word raw' w') → (opcodeOf w').toNat ≠ 2038)

/-- R48: with `PRELOAD_DATA` false no bank exists at engine reset; with it true a bank exists exactly at the address of each
RAW-DATA word, slot 0 its literal and the other slots 0, and at no other of the W-bit keys, negative ones included. (At least
32 bits of key, as R9 asks, and an image short enough that no two addresses are one key.) -/
def Obligations.PreloadPlacesTheLiterals : Prop :=
  ∀ (p : Params) (entries : List Entry), p.wf = true → 96 + 4 * entries.length ≤ 2 ^ 31 →
    (p.preloadData = false → ∀ key, (boot p entries).slots key = none) ∧
      (p.preloadData = true → ∀ (key : Int) (slots : Vector Int 8),
        -(2 ^ (p.width - 1)) ≤ key → key < 2 ^ (p.width - 1) →
        ((boot p entries).slots key = some slots ↔
          ∃ (i : Nat) (record : Record) (literal : Int), (decodeFrom false 0 entries)[i]? = some record ∧
            record.fields = .rawData literal ∧ key = 96 + 4 * i ∧ slots = #v[literal, 0, 0, 0, 0, 0, 0, 0]))

/-! The engine's cycle. -/

/-- R100 to R103: where the engine is in its loop and the record at `pc` is the record of a word that decodes to `i`, the step
is the effect of `i`. -/
def Obligations.StepRunsTheDecodedInstruction : Prop :=
  ∀ (s : State) (index : Nat) (raw : String) (w : InstrWord) (i : Instr), Active s → 0 ≤ s.pc →
    s.image[s.pc.toNat]? = some (buildRecord false index (.word raw w)) → decode w = .ok i → step s = exec i s

/-- R102: the engine's class of a record is the one classifier on its opcode field: the decoder's own for a classified record,
NOP for a RAW-DATA word, unclassified for an unclassified word and for a malformed entry. -/
def Obligations.EngineClassAgreesWithTheDecoder : Prop :=
  (∀ record : Record, engineClass record = record.opcodeField.bind classify) ∧
    ∀ (haltSeen : Bool) (i : Nat) (raw : String) (w : InstrWord),
      (∀ j, decode w = .ok j →
        engineClass (buildRecord false i (.word raw w)) = some (j.mnemonic, j.mnemonic.format) ∧
          (buildRecord false i (.word raw w)).mnemonic = some j.mnemonic ∧
          engineInstr (buildRecord false i (.word raw w)) = some j) ∧
        (∀ e, decode w = .error e → engineClass (buildRecord false i (.word raw w)) = none) ∧
        engineClass (buildRecord true i (.word raw w)) = some (.NOP, .NOP) ∧
        engineInstr (buildRecord true i (.word raw w)) = some .nop ∧
        engineClass (buildRecord haltSeen i (.malformed raw)) = none

/-- R104: a record whose class is unclassified is skipped. -/
def Obligations.UnclassifiedRecordIsSkipped : Prop :=
  ∀ (s : State) (record : Record), Active s → 0 ≤ s.pc → s.image[s.pc.toNat]? = some record →
    engineClass record = none →
    ∃ t, step s = .next t ∧ SkippedTo s t

/-- R163: a RAW-DATA record the engine reaches runs as NOP, or stops the run under `DATA_EXEC = fault`; without a literal it
is skipped under either. -/
def Obligations.RawDataRunsAsNopOrStops : Prop :=
  ∀ (s : State) (index : Nat), Active s → 0 ≤ s.pc →
    (∀ raw w, s.image[s.pc.toNat]? = some (buildRecord true index (.word raw w)) →
      (s.params.dataExec = .asNop → step s = exec .nop s) ∧
        (s.params.dataExec = .fault → ∃ t, step s = .next t ∧ StoppedAs (.faulted .dataExecuted) s t)) ∧
      ∀ raw, s.image[s.pc.toNat]? = some (buildRecord true index (.malformed raw)) →
        ∃ t, step s = .next t ∧ SkippedTo s t

/-- R105: the two stops under non-default parameter values, the one on data first; neither retires anything or changes any
state but `status`. Under the default values neither happens: no step in the loop leads to one of the two statuses. -/
def Obligations.PolicyStopsChangeOnlyTheStatus : Prop :=
  ∀ (s : State) (record : Record) (i : Instr), Active s → 0 ≤ s.pc → s.image[s.pc.toNat]? = some record →
    engineInstr record = some i →
    (record.format = some .rawData → s.params.dataExec = .fault →
      ∃ t, step s = .next t ∧ StoppedAs (.faulted .dataExecuted) s t) ∧
      (¬ (record.format = some .rawData ∧ s.params.dataExec = .fault) → s.params.incompleteOps = .refuse →
        i.mnemonic ∈ [Mnemonic.LSR, .LSL, .ASR, .MOVZ, .MOVK] →
        ∃ t, step s = .next t ∧ StoppedAs (.refused i.mnemonic) s t) ∧
      (s.params.dataExec = .asNop → s.params.incompleteOps = .tracedOnly →
        ∃ t, step s = .next t ∧ t.status = .running ∧ t.cycle = s.cycle + 1)

/-- R108: how the loop ends. `halted` is tested first, then the bounds; each stop changes only `status`; and inside the image
with `halted` false neither of the two happens. -/
def Obligations.LoopTestsDecideTheTerminalStatus : Prop :=
  ∀ s : State, s.phase = .engine → s.status = .running →
    (s.halted = true → ∃ t, step s = .next t ∧ StoppedAs .halted s t) ∧
      (s.halted = false → s.pc < 0 ∨ (s.image.length : Int) ≤ s.pc →
        ∃ t, step s = .next t ∧ StoppedAs .outOfBounds s t) ∧
      (s.halted = false → 0 ≤ s.pc → s.pc < s.image.length →
        ∃ t, step s = .next t ∧ t.status ≠ .halted ∧ t.status ≠ .outOfBounds)

/-- R107: BREAK at the index `pc` retires, and the run then ends `Halted` with `pc` and `cycle` one further and no second
event. -/
def Obligations.BreakEndsTheRunOneStepLater : Prop :=
  ∀ (s : State) (index : Nat) (raw : String) (w : InstrWord), Active s → 0 ≤ s.pc →
    s.image[s.pc.toNat]? = some (buildRecord false index (.word raw w)) → (opcodeOf w).toNat = 2038 →
    ∃ t, Steps 2 s t ∧ t.status = .halted ∧ t.halted = true ∧ t.pc = s.pc + 1 ∧ t.cycle = s.cycle + 1 ∧
      (∃ e, t.trace = s.trace ++ [e] ∧ e.mnemonic = .BREAK ∧ e.cycle = s.cycle ∧ e.address = 96 + 4 * s.pc) ∧
      SameRegs s t ∧ SameMemory s t ∧ SameProgram s t

/-- The model's choice (notes/assumptions/4.md; R109 and R186 say only that nothing wakes the core): after the run has ended
any number of steps gives the final state again. -/
def Obligations.FinalStateStays : Prop :=
  ∀ s : State, s.phase = .engine → Ended s → ∀ k, Steps k s s

/-- R199: the branch `B #0` never ends a run: after any number of steps the engine is at the same index, running, with one
more retirement a step. -/
def Obligations.BranchToItselfNeverEnds : Prop :=
  ∀ (s : State) (index : Nat) (raw : String), Active s → 0 ≤ s.pc →
    s.image[s.pc.toNat]? = some (buildRecord false index (.word raw 0x14000000)) →
    ∀ k, ∃ t, Steps k s t ∧ Active t ∧ t.pc = s.pc ∧ t.cycle = s.cycle + k ∧ t.trace.length = s.trace.length + k ∧
      SameRegs s t ∧ SameMemory s t

/-! The instructions: each rule's encoding, syntax, effect, frame and retirement. -/

/-- R121: B. A target outside the image is not checked here; the next loop test stops the run on it. -/
def Obligations.BranchGoesToItsOffset : Prop :=
  (∀ w : InstrWord, w &&& 0xFC000000#32 = 0x14000000#32 → decode w = .ok (.b (signedAt w 0 26))) ∧
    ∀ (offset : Int) (s : State), operandText (.b offset) = "#" ++ toString offset ∧
      ∃ t, exec (.b offset) s = .next t ∧ RetiredTo (.b offset) (s.pc + offset) s t ∧ SameRegs s t ∧ SameMemory s t ∧
        SameControl s t ∧ SameProgram s t ∧ OutOfBoundsNext s t

/-- R126: AND. -/
def Obligations.AndWritesTheBitwiseAnd : Prop :=
  (∀ w : InstrWord, w &&& 0xFFE00000#32 = 0x8A000000#32 →
    decode w = .ok (.and (regAt w 0) (regAt w 5) (regAt w 16) (unsignedAt w 10 6))) ∧
    ∀ (rd rn rm : RegIdx) (shamt : Nat) (s : State),
      operandText (.and rd rn rm shamt) =
        "R" ++ toString rd.val ++ ", " ++ ("R" ++ toString rn.val) ++ ", " ++ ("R" ++ toString rm.val) ∧
      ∃ t, exec (.and rd rn rm shamt) s = .next t ∧
        (∀ k, (t.reg rd).getLsbD k = ((s.reg rn).getLsbD k && (s.reg rm).getLsbD k)) ∧
        SameRegsBut rd s t ∧ SameMemory s t ∧ SameControl s t ∧ SameProgram s t ∧
        RetiredTo (.and rd rn rm shamt) (s.pc + 1) s t

/-- R127: ADD. -/
def Obligations.AddWritesTheSum : Prop :=
  (∀ w : InstrWord, w &&& 0xFFE00000#32 = 0x8B000000#32 →
    decode w = .ok (.add (regAt w 0) (regAt w 5) (regAt w 16) (unsignedAt w 10 6))) ∧
    ∀ (rd rn rm : RegIdx) (shamt : Nat) (s : State),
      operandText (.add rd rn rm shamt) =
        "R" ++ toString rd.val ++ ", " ++ ("R" ++ toString rn.val) ++ ", " ++ ("R" ++ toString rm.val) ∧
      ∃ t, exec (.add rd rn rm shamt) s = .next t ∧
        t.regVal rd = (s.regVal rn + s.regVal rm).bmod (2 ^ s.width) ∧
        SameRegsBut rd s t ∧ SameMemory s t ∧ SameControl s t ∧ SameProgram s t ∧
        RetiredTo (.add rd rn rm shamt) (s.pc + 1) s t

/-- R128: ORR. -/
def Obligations.OrrWritesTheBitwiseOr : Prop :=
  (∀ w : InstrWord, w &&& 0xFFE00000#32 = 0xAA000000#32 →
    decode w = .ok (.orr (regAt w 0) (regAt w 5) (regAt w 16) (unsignedAt w 10 6))) ∧
    ∀ (rd rn rm : RegIdx) (shamt : Nat) (s : State),
      operandText (.orr rd rn rm shamt) =
        "R" ++ toString rd.val ++ ", " ++ ("R" ++ toString rn.val) ++ ", " ++ ("R" ++ toString rm.val) ∧
      ∃ t, exec (.orr rd rn rm shamt) s = .next t ∧
        (∀ k, (t.reg rd).getLsbD k = ((s.reg rn).getLsbD k || (s.reg rm).getLsbD k)) ∧
        SameRegsBut rd s t ∧ SameMemory s t ∧ SameControl s t ∧ SameProgram s t ∧
        RetiredTo (.orr rd rn rm shamt) (s.pc + 1) s t

/-- R129: SUB, the second operand minus the first. -/
def Obligations.SubWritesSecondMinusFirst : Prop :=
  (∀ w : InstrWord, w &&& 0xFFE00000#32 = 0xCB000000#32 →
    decode w = .ok (.sub (regAt w 0) (regAt w 5) (regAt w 16) (unsignedAt w 10 6))) ∧
    ∀ (rd rn rm : RegIdx) (shamt : Nat) (s : State),
      operandText (.sub rd rn rm shamt) =
        "R" ++ toString rd.val ++ ", " ++ ("R" ++ toString rn.val) ++ ", " ++ ("R" ++ toString rm.val) ∧
      ∃ t, exec (.sub rd rn rm shamt) s = .next t ∧
        t.regVal rd = (s.regVal rm - s.regVal rn).bmod (2 ^ s.width) ∧
        SameRegsBut rd s t ∧ SameMemory s t ∧ SameControl s t ∧ SameProgram s t ∧
        RetiredTo (.sub rd rn rm shamt) (s.pc + 1) s t

/-- R130: EOR. -/
def Obligations.EorWritesTheBitwiseExclusiveOr : Prop :=
  (∀ w : InstrWord, w &&& 0xFFE00000#32 = 0xEA000000#32 →
    decode w = .ok (.eor (regAt w 0) (regAt w 5) (regAt w 16) (unsignedAt w 10 6))) ∧
    ∀ (rd rn rm : RegIdx) (shamt : Nat) (s : State),
      operandText (.eor rd rn rm shamt) =
        "R" ++ toString rd.val ++ ", " ++ ("R" ++ toString rn.val) ++ ", " ++ ("R" ++ toString rm.val) ∧
      ∃ t, exec (.eor rd rn rm shamt) s = .next t ∧
        (∀ k, (t.reg rd).getLsbD k = ((s.reg rn).getLsbD k ^^ (s.reg rm).getLsbD k)) ∧
        SameRegsBut rd s t ∧ SameMemory s t ∧ SameControl s t ∧ SameProgram s t ∧
        RetiredTo (.eor rd rn rm shamt) (s.pc + 1) s t

/-- R131 to R133: LSR, LSL and ASR. Under `tracedOnly` each retires and changes nothing else; under `refuse` each stops the
run with its own `Refused` status. -/
def Obligations.ShiftsAreTracedOnlyOrRefused : Prop :=
  (∀ w : InstrWord,
    (w &&& 0xFFE00000#32 = 0xD3400000#32 →
      decode w = .ok (.lsr (regAt w 0) (regAt w 5) (regAt w 16) (unsignedAt w 10 6))) ∧
    (w &&& 0xFFE00000#32 = 0xD3600000#32 →
      decode w = .ok (.lsl (regAt w 0) (regAt w 5) (regAt w 16) (unsignedAt w 10 6))) ∧
    (w &&& 0xFFE00000#32 = 0xD3800000#32 →
      decode w = .ok (.asr (regAt w 0) (regAt w 5) (regAt w 16) (unsignedAt w 10 6)))) ∧
    ∀ (rd rn rm : RegIdx) (shamt : Nat) (s : State),
      ∀ i ∈ [Instr.lsr rd rn rm shamt, .lsl rd rn rm shamt, .asr rd rn rm shamt],
        operandText i = "R" ++ toString rd.val ++ ", " ++ ("R" ++ toString rn.val) ++ ", " ++ ("#" ++ toString shamt) ∧
        (s.params.incompleteOps = .tracedOnly → ∃ t, exec i s = .next t ∧ RetiredTo i (s.pc + 1) s t ∧ SameRegs s t ∧
          SameMemory s t ∧ SameControl s t ∧ SameProgram s t) ∧
        (s.params.incompleteOps = .refuse → ∃ t, exec i s = .next t ∧ StoppedAs (.refused i.mnemonic) s t)

/-- R141: ADDI. -/
def Obligations.AddiWritesTheSumWithTheImmediate : Prop :=
  (∀ w : InstrWord, w &&& 0xFFC00000#32 = 0x91000000#32 →
    decode w = .ok (.addi (regAt w 0) (regAt w 5) (signedAt w 10 12))) ∧
    ∀ (rd rn : RegIdx) (imm : Int) (s : State),
      operandText (.addi rd rn imm) =
        "R" ++ toString rd.val ++ ", " ++ ("R" ++ toString rn.val) ++ ", " ++ ("#" ++ toString imm) ∧
      ∃ t, exec (.addi rd rn imm) s = .next t ∧
        t.regVal rd = (s.regVal rn + imm).bmod (2 ^ s.width) ∧
        SameRegsBut rd s t ∧ SameMemory s t ∧ SameControl s t ∧ SameProgram s t ∧
        RetiredTo (.addi rd rn imm) (s.pc + 1) s t

/-- R142: SUBI. -/
def Obligations.SubiWritesTheDifferenceWithTheImmediate : Prop :=
  (∀ w : InstrWord, w &&& 0xFFC00000#32 = 0xD1000000#32 →
    decode w = .ok (.subi (regAt w 0) (regAt w 5) (signedAt w 10 12))) ∧
    ∀ (rd rn : RegIdx) (imm : Int) (s : State),
      operandText (.subi rd rn imm) =
        "R" ++ toString rd.val ++ ", " ++ ("R" ++ toString rn.val) ++ ", " ++ ("#" ++ toString imm) ∧
      ∃ t, exec (.subi rd rn imm) s = .next t ∧
        t.regVal rd = (s.regVal rn - imm).bmod (2 ^ s.width) ∧
        SameRegsBut rd s t ∧ SameMemory s t ∧ SameControl s t ∧ SameProgram s t ∧
        RetiredTo (.subi rd rn imm) (s.pc + 1) s t

/-- R146: CBZ. -/
def Obligations.CbzBranchesOnZero : Prop :=
  (∀ w : InstrWord, w &&& 0xFF000000#32 = 0xB4000000#32 → decode w = .ok (.cbz (regAt w 0) (signedAt w 5 19))) ∧
    ∀ (rt : RegIdx) (offset : Int) (s : State),
      operandText (.cbz rt offset) = "R" ++ toString rt.val ++ ", " ++ ("#" ++ toString offset) ∧
      ∃ t, exec (.cbz rt offset) s = .next t ∧
        RetiredTo (.cbz rt offset) (if s.regVal rt = 0 then s.pc + offset else s.pc + 1) s t ∧
        SameRegs s t ∧ SameMemory s t ∧ SameControl s t ∧ SameProgram s t ∧ OutOfBoundsNext s t

/-- R147: CBNZ. -/
def Obligations.CbnzBranchesOnNonZero : Prop :=
  (∀ w : InstrWord, w &&& 0xFF000000#32 = 0xB5000000#32 → decode w = .ok (.cbnz (regAt w 0) (signedAt w 5 19))) ∧
    ∀ (rt : RegIdx) (offset : Int) (s : State),
      operandText (.cbnz rt offset) = "R" ++ toString rt.val ++ ", " ++ ("#" ++ toString offset) ∧
      ∃ t, exec (.cbnz rt offset) s = .next t ∧
        RetiredTo (.cbnz rt offset) (if s.regVal rt ≠ 0 then s.pc + offset else s.pc + 1) s t ∧
        SameRegs s t ∧ SameMemory s t ∧ SameControl s t ∧ SameProgram s t ∧ OutOfBoundsNext s t

/-- R151, R152: MOVZ and MOVK. Under `tracedOnly` each retires and changes nothing else; under `refuse` each stops the run
with its own `Refused` status. -/
def Obligations.WideMovesAreTracedOnlyOrRefused : Prop :=
  (∀ w : InstrWord,
    (w &&& 0xFF800000#32 = 0xD2800000#32 → decode w = .ok (.movz (regAt w 0) (unsignedAt w 5 16) (unsignedAt w 21 2))) ∧
    (w &&& 0xFF800000#32 = 0xF2800000#32 →
      decode w = .ok (.movk (regAt w 0) (unsignedAt w 5 16) (unsignedAt w 21 2)))) ∧
    ∀ (rd : RegIdx) (field shiftCode : Nat) (s : State),
      ∀ i ∈ [Instr.movz rd field shiftCode, .movk rd field shiftCode],
        operandText i = "R" ++ toString rd.val ++ ", " ++ toString field ++ ", LSL " ++ toString shiftCode ∧
        (s.params.incompleteOps = .tracedOnly → ∃ t, exec i s = .next t ∧ RetiredTo i (s.pc + 1) s t ∧ SameRegs s t ∧
          SameMemory s t ∧ SameControl s t ∧ SameProgram s t) ∧
        (s.params.incompleteOps = .refuse → ∃ t, exec i s = .next t ∧ StoppedAs (.refused i.mnemonic) s t)

/-- R44: the effective address is the base plus four times the offset, reduced modulo `2^W` into the signed range. -/
def Obligations.EffectiveAddressIsBasePlusScaledOffset : Prop :=
  ∀ (s : State) (rn : RegIdx) (w : InstrWord),
    s.eaVal rn (unsignedAt w 12 9) = (s.regVal rn + 4 * (w.toNat / 2 ^ 12 % 2 ^ 9 : Nat)).bmod (2 ^ s.width) ∧
      unsignedAt w 12 9 ≤ 511

/-- R155: STUR. The bank at the effective address exists afterwards, with slot 0 the register's value, and slots 1 to 7 as they
were, or 0 in a bank just created; every other key is as it was; `op2` makes no difference. -/
def Obligations.SturStoresTheRegister : Prop :=
  (∀ w : InstrWord, w &&& 0xFFE00000#32 = 0xF8000000#32 →
    decode w = .ok (.stur (regAt w 0) (regAt w 5) (unsignedAt w 12 9) (unsignedAt w 10 2))) ∧
    ∀ (rt rn : RegIdx) (address op2 : Nat) (s : State),
      operandText (.stur rt rn address op2) =
        "R" ++ toString rt.val ++ ", [" ++ ("R" ++ toString rn.val) ++ ", " ++ ("#" ++ toString address) ++ "]" ∧
      ∃ t, exec (.stur rt rn address op2) s = .next t ∧
        t.slots (s.eaVal rn address) =
          some (((s.slots (s.eaVal rn address)).getD #v[0, 0, 0, 0, 0, 0, 0, 0]).set 0 (s.regVal rt)) ∧
        (∀ key, BitVec.ofInt s.width key ≠ BitVec.ofInt s.width (s.eaVal rn address) → t.slots key = s.slots key) ∧
        SameRegs s t ∧ SameControl s t ∧ SameProgram s t ∧ RetiredTo (.stur rt rn address op2) (s.pc + 1) s t

/-- R156: LDUR. The register takes slot 0 of the bank at the effective address, computed from the old base, or 0 where there
is no bank; no bank is created. -/
def Obligations.LdurLoadsSlotZero : Prop :=
  (∀ w : InstrWord, w &&& 0xFFE00000#32 = 0xF8400000#32 →
    decode w = .ok (.ldur (regAt w 0) (regAt w 5) (unsignedAt w 12 9) (unsignedAt w 10 2))) ∧
    ∀ (rt rn : RegIdx) (address op2 : Nat) (s : State),
      operandText (.ldur rt rn address op2) =
        "R" ++ toString rt.val ++ ", [" ++ ("R" ++ toString rn.val) ++ ", " ++ ("#" ++ toString address) ++ "]" ∧
      ∃ t, exec (.ldur rt rn address op2) s = .next t ∧
        t.regVal rt = ((s.slots (s.eaVal rn address)).map (fun v => v[0])).getD 0 ∧
        SameRegsBut rt s t ∧ SameMemory s t ∧ SameControl s t ∧ SameProgram s t ∧
        RetiredTo (.ldur rt rn address op2) (s.pc + 1) s t

/-- R157: STUR and LDUR behave the same for every `op2` value, and the offset of a word never goes below the base nor more
than 2044 above it. -/
def Obligations.ReservedFieldChangesNothing : Prop :=
  (∀ (rt rn : RegIdx) (address op2 op2' : Nat) (s : State),
    exec (.stur rt rn address op2) s = exec (.stur rt rn address op2') s ∧
      exec (.ldur rt rn address op2) s = exec (.ldur rt rn address op2') s) ∧
    ∀ (w : InstrWord) (s : State) (rn : RegIdx), ∃ up : Nat, up ≤ 2044 ∧
      s.eaVal rn (unsignedAt w 12 9) = (s.regVal rn + up).bmod (2 ^ s.width)

/-- R161: NOP. -/
def Obligations.NopOnlyRetires : Prop :=
  (∀ w : InstrWord, w &&& 0xFFE00000#32 = 0x00000000#32 → decode w = .ok .nop) ∧ operandText .nop = "" ∧
    ∀ s : State, ∃ t, exec .nop s = .next t ∧ RetiredTo .nop (s.pc + 1) s t ∧ SameRegs s t ∧ SameMemory s t ∧
      SameControl s t ∧ SameProgram s t

/-- R162: BREAK sets `halted`, retires, and the run ends `Halted` at the next loop test. -/
def Obligations.BreakSetsHaltedAndRetires : Prop :=
  (∀ w : InstrWord, w &&& 0xFFE00000#32 = 0xFEC00000#32 → decode w = .ok .brk) ∧ operandText .brk = "" ∧
    ∀ s : State, ∃ t, exec .brk s = .next t ∧ t.halted = true ∧ t.status = s.status ∧ t.diag = s.diag ∧
      RetiredTo .brk (s.pc + 1) s t ∧ SameRegs s t ∧ SameMemory s t ∧ SameProgram s t ∧
      (s.phase = .engine → s.status = .running → ∃ u, step t = .next u ∧ StoppedAs .halted t u)

/-! Rules about the whole machine. -/

/-- R47, R52: a load returns what the latest store to the key stored, whole; a store repeated leaves memory as one store does;
and a store to one key never changes what another key gives. -/
def Obligations.LoadReturnsTheStoredValue : Prop :=
  ∀ (rt rn rd : RegIdx) (address op2 op2' : Nat) (s t : State), exec (.stur rt rn address op2) s = .next t →
    (∃ u, exec (.ldur rd rn address op2') t = .next u ∧ u.regVal rd = s.regVal rt) ∧
      (∃ u, exec (.stur rt rn address op2) t = .next u ∧ SameMemory t u) ∧
      ∀ key, BitVec.ofInt s.width key ≠ BitVec.ofInt s.width (s.eaVal rn address) → t.loadVal key = s.loadVal key

/-- R112, R110: in canonical memory the snapshot is absent exactly when no bank exists, and otherwise lists every existing
bank, with its 8 slots, in strictly ascending order of the signed key. -/
def Obligations.MemorySnapshotListsTheBanks : Prop :=
  ∀ s : State, Memory.wf s.mem →
    (memorySnapshot s = none ↔ ∀ key, s.slots key = none) ∧
      ∀ rows, memorySnapshot s = some rows → rows.Pairwise (fun a b => a.1 < b.1) ∧
        (∀ row ∈ rows, s.slots row.1 = some row.2) ∧
        ∀ key slots, s.slots key = some slots → (key.bmod (2 ^ s.width), slots) ∈ rows

/-- R21: a step of the engine changes a register only by an instruction that names it as its destination: `rd` of ADD, AND,
ORR, EOR, SUB, ADDI and SUBI, `rt` of LDUR; any register can be the one. -/
def Obligations.OnlyDestinationsAreWritten : Prop :=
  ∀ (s t : State) (r : RegIdx), s.phase = .engine → step s = .next t → t.regVal r ≠ s.regVal r →
    ∃ record i, fetch s = some record ∧ engineInstr record = some i ∧
      (i.mnemonic ∈ [Mnemonic.ADD, .AND, .ORR, .EOR, .SUB] ∧
          (∃ rn rm shamt, i.fields = .r r rn rm shamt) ∨
        i.mnemonic ∈ [Mnemonic.ADDI, .SUBI] ∧ (∃ rn imm, i.fields = .i r rn imm) ∨
        i.mnemonic = .LDUR ∧ (∃ rn address op2, i.fields = .d r rn address op2))

/-- R31, R112: only STUR changes data memory, and only the bank at its effective address; no bank is ever removed. -/
def Obligations.OnlySturChangesMemory : Prop :=
  ∀ (s t : State) (key : Int), s.phase = .engine → step s = .next t →
    ((s.slots key).isSome = true → (t.slots key).isSome = true) ∧
      (t.slots key ≠ s.slots key →
        ∃ record rt rn address op2, fetch s = some record ∧ engineInstr record = some (.stur rt rn address op2) ∧
          BitVec.ofInt s.width key = effectiveAddress s rn address)

/-- R30, R55, R194: no step of the engine changes the decoded image, the entries, the parameters or the decoder's state, and
the engine never goes back to decoding. -/
def Obligations.ImageIsReadOnlyToTheEngine : Prop :=
  ∀ s t : State, s.phase = .engine → step s = .next t → SameProgram s t

/-- R34, R106, R110: a step of the engine adds at most one event and at most one diagnostic, never both, removes none, and
moves `cycle` by the number of events it adds. -/
def Obligations.EngineOutputsOnlyGrow : Prop :=
  ∀ s t : State, s.phase = .engine → step s = .next t →
    ∃ events diags, t.trace = s.trace ++ events ∧ t.diag = s.diag ++ diags ∧ events.length + diags.length ≤ 1 ∧
      t.cycle = s.cycle + events.length

/-- R25: `halted` is set by BREAK alone, nothing clears it, and while it is set nothing retires. -/
def Obligations.HaltedIsSetByBreakAndStays : Prop :=
  ∀ s t : State, s.phase = .engine → step s = .next t →
    (s.halted = true → t.halted = true ∧ t.trace = s.trace ∧ t.cycle = s.cycle ∧ t.pc = s.pc) ∧
      (s.halted = false → t.halted = true → ∃ record, fetch s = some record ∧ engineInstr record = some .brk)

/-- The invariant of the core holds at launch and at reset. Its canonical form of memory and its idle clause are the model's
(log entries 5 and 3). -/
def Obligations.InvariantHoldsAtLaunch : Prop :=
  State.reset.Inv ∧ ∀ (p : Params) (entries : List Entry), p.wf = true → (launch p entries).Inv

/-- The invariant of the core is kept by every step, from every state that has it: `W` at least 32, canonical memory, slots 1
to 7 zero, an image that is the decode pass of the entries read so far, `haltSeen` as that image says, the decoder within the
entries and at their end in the engine phase, `cycle` one more than the retirements, and, while decoding, no event, status
`Running` and `halted` false. The canonical form of memory is the model's (DEDUCED, log entry 5), and so is the last clause
(DESIGN CHOICE, log entry 3). -/
def Obligations.StepKeepsTheInvariant : Prop :=
  ∀ s t : State, s.Inv → step s = .next t → t.Inv
end

