-- ==== Sys2Proof/Laws/Decode.lean ====
section
/-! SUPPORT. The arithmetic of the encodings: slices and fields as quotients and remainders, the encoded words as sums, the
rows of the classifier as ranges, and what the extracted fields satisfy. -/

namespace Sys2Proof

/-- A slice as a quotient and a remainder (R10). -/
theorem slice_toNat (w : InstrWord) (lo len : Nat) : (slice w lo len).toNat = w.toNat / 2 ^ lo % 2 ^ len := by
  simp [slice, BitVec.extractLsb'_toNat, Nat.shiftRight_eq_div_pow]

theorem regAt_val (w : InstrWord) (lo : Nat) : (regAt w lo).val = w.toNat / 2 ^ lo % 32 :=
  slice_toNat w lo 5

theorem unsignedAt_eq (w : InstrWord) (lo len : Nat) : unsignedAt w lo len = w.toNat / 2 ^ lo % 2 ^ len := by
  simp [unsignedAt, zext, slice_toNat]

theorem signedAt_eq (w : InstrWord) (lo len : Nat) :
    signedAt w lo len = ((w.toNat / 2 ^ lo : Nat) : Int).bmod (2 ^ len) := by
  simp only [signedAt, sext, slice_toNat, BitVec.toInt_eq_toNat_bmod, BitVec.toNat_ofNat, Nat.mod_mod]
  rw [Int.natCast_emod, Int.emod_bmod]

/-- An unsigned field lies within its width. -/
theorem unsignedAt_fits (w : InstrWord) (lo len : Nat) : fitsUnsigned len (unsignedAt w lo len) = true := by
  simp [fitsUnsigned, unsignedAt, zext, BitVec.isLt]

/-- A signed field lies within its width. -/
theorem signedAt_fits (w : InstrWord) (lo len : Nat) : fitsSigned len (signedAt w lo len) = true := by
  exact decide_eq_true ⟨BitVec.le_toInt _, BitVec.toInt_lt⟩

/-- The extractor's fields fit their widths, for every word and every tag (R70). -/
theorem extractFields_wellFormed (w : InstrWord) (fmt : Format) : (extractFields w fmt).wellFormed = true := by
  cases fmt <;> simp only [extractFields, Fields.wellFormed, Bool.and_eq_true, unsignedAt_fits, signedAt_fits, and_self]

/-- What a mnemonic and fields assemble to has that mnemonic, and those fields where its format has fields. -/
theorem assemble_mnemonic {mn : Mnemonic} {f : Fields} {i : Instr} (h : assemble mn f = some i) : i.mnemonic = mn := by
  unfold assemble at h
  split at h <;> simp_all [Instr.mnemonic] <;> subst h <;> rfl

/-- An instruction is assembled again from its mnemonic and its fields. -/
@[simp] theorem assemble_fields (i : Instr) : assemble i.mnemonic i.fields = some i := by cases i <;> rfl

/-- The extracted fields of a mnemonic's own format always assemble. -/
theorem assemble_extract (w : InstrWord) (mn : Mnemonic) :
    ∃ i, assemble mn (extractFields w mn.format) = some i ∧ i.mnemonic = mn ∧ i.fields = extractFields w mn.format := by
  cases mn <;> exact ⟨_, rfl, rfl, rfl⟩

/-- No two rows of the opcode table overlap (R73). -/
theorem classifierRows_disjoint :
    ∀ r ∈ classifierRows, ∀ q ∈ classifierRows, r.1 ≤ q.2.1 → q.1 ≤ r.2.1 → r = q := by decide

/-- A row's range classifies as the row (R72). -/
theorem classify_of_row {op : OpcodeField} {lo hi : Nat} {mf : Mnemonic × Format} (hrow : (lo, hi, mf) ∈ classifierRows)
    (h : lo ≤ op.toNat ∧ op.toNat ≤ hi) : classify op = some mf := by
  unfold classify
  cases hf : classifierRows.find? (fun row => decide (row.1 ≤ op.toNat ∧ op.toNat ≤ row.2.1)) with
  | none => exact absurd (decide_eq_true h) (by simpa using List.find?_eq_none.1 hf _ hrow)
  | some q =>
    have hq : q.1 ≤ op.toNat ∧ op.toNat ≤ q.2.1 := by simpa using List.find?_some hf
    have := classifierRows_disjoint _ hrow _ (List.mem_of_find?_eq_some hf) (h.1.trans hq.2) (hq.1.trans h.2)
    simp [← this]

/-- What is classified lies in a row's range (R72). -/
theorem row_of_classify {op : OpcodeField} {mf : Mnemonic × Format} (h : classify op = some mf) :
    ∃ lo hi, (lo, hi, mf) ∈ classifierRows ∧ lo ≤ op.toNat ∧ op.toNat ≤ hi := by
  simp only [classify, Option.map_eq_some_iff] at h
  obtain ⟨⟨lo, hi, mf'⟩, hfind, rfl⟩ := h
  exact ⟨lo, hi, List.mem_of_find?_eq_some hfind, by simpa using List.find?_some hfind⟩

/-- The format of a classified mnemonic is its row's (R72). -/
theorem classify_format {op : OpcodeField} {mn : Mnemonic} {fmt : Format} (h : classify op = some (mn, fmt)) :
    fmt = mn.format := by
  obtain ⟨lo, hi, hrow, -⟩ := row_of_classify h
  simp only [classifierRows, List.mem_cons, Prod.mk.injEq, List.not_mem_nil, or_false] at hrow
  rcases hrow with h' | h' | h' | h' | h' | h' | h' | h' | h' | h' | h' | h' | h' | h' | h' | h' | h' | h' | h' <;>
    obtain ⟨-, -, rfl, rfl⟩ := h' <;> rfl

/-- The decoder's answer: the row's mnemonic with the fields of its format (R81). -/
theorem decode_eq_ok_iff (w : InstrWord) (i : Instr) :
    decode w = .ok i ↔ classify (opcodeOf w) = some (i.mnemonic, i.mnemonic.format) ∧
      i.fields = extractFields w i.mnemonic.format := by
  unfold decode
  cases hc : classify (opcodeOf w) with
  | none => simp
  | some mf =>
    obtain ⟨mn, fmt⟩ := mf
    obtain rfl := classify_format hc
    obtain ⟨j, hj, hm, hf⟩ := assemble_extract w mn
    simp only [Option.bind_some, hj, Except.ok.injEq]
    constructor
    · rintro rfl; exact ⟨by rw [hm], by rw [hm, hf]⟩
    · rintro ⟨h, h'⟩
      simp only [Option.some.injEq, Prod.mk.injEq] at h
      rw [← h.1, ← hf] at h'
      have e := assemble_fields i
      rw [h', ← h.1, ← hm, assemble_fields] at e
      exact Option.some.inj e

/-- The decoder rejects exactly the unclassified words, and names their opcode field (R75). -/
theorem decode_eq_error_iff (w : InstrWord) (e : DecodeError) :
    decode w = .error e ↔ classify (opcodeOf w) = none ∧ e = .invalidOpcode (opcodeOf w) := by
  unfold decode
  cases hc : classify (opcodeOf w) with
  | none => simp [eq_comm]
  | some mf =>
    obtain ⟨mn, fmt⟩ := mf
    obtain rfl := classify_format hc
    obtain ⟨j, hj, -⟩ := assemble_extract w mn
    simp [hj]

/-- The decoder answers well-formed instructions only. -/
theorem decode_wellFormed {w : InstrWord} {i : Instr} (h : decode w = .ok i) : i.wellFormed = true := by
  rw [Instr.wellFormed, ((decode_eq_ok_iff w i).1 h).2]
  exact extractFields_wellFormed _ _

/-- The fixed bits of a mask select the same bits of a word as of its match value (R74). -/
theorem slice_of_mask {w mask pattern : InstrWord} {lo len : Nat} (hm : slice mask lo len = BitVec.allOnes len)
    (h : w &&& mask = pattern) : slice w lo len = slice pattern lo len := by
  subst h
  ext i hi
  have hb : (slice mask lo len)[i] = true := by simp [hm]
  simp only [slice, BitVec.getElem_extractLsb'] at hb ⊢
  simp [hb]

/-- A mask of the bits from `k` up: a word has the masked bits of a pattern that is 0 below `k` exactly when the two agree
above (R74). -/
theorem and_highMask_eq_iff {n : Nat} (w pattern : BitVec n) (k : Nat) (hp : pattern.toNat % 2 ^ k = 0) :
    w &&& (BitVec.allOnes n <<< k) = pattern ↔ w.toNat / 2 ^ k = pattern.toNat / 2 ^ k := by
  have hlow : ∀ i < k, pattern.toNat.testBit i = false := by
    intro i hi
    have := Nat.testBit_mod_two_pow pattern.toNat k i
    simpa [hp, hi] using this.symm
  constructor
  · rintro rfl
    refine Nat.eq_of_testBit_eq fun i => ?_
    simp only [Nat.testBit_div_two_pow, ← BitVec.getLsbD.eq_1, BitVec.getLsbD_and, BitVec.getLsbD_shiftLeft,
      BitVec.getLsbD_allOnes]
    by_cases h : i + k < n
    · simp [h]; intro; omega
    · simp [h, BitVec.getLsbD_of_ge w (i + k) (by omega)]
  · intro h
    ext i hi
    by_cases hk : i < k
    · simp [hk, BitVec.getElem_eq_testBit_toNat pattern, hlow i hk]
    · have hbit := congrArg (fun m => m.testBit (i - k)) h
      simp only [Nat.testBit_div_two_pow, show i - k + k = i by omega] at hbit
      simp only [BitVec.getElem_eq_testBit_toNat, BitVec.toNat_and, Nat.testBit_and, ← hbit, Bool.and_eq_left_iff_imp]
      simp only [← BitVec.getLsbD.eq_1, BitVec.getLsbD_shiftLeft, BitVec.getLsbD_allOnes, hk]
      simp; omega

/-- Appending is adding the lower part to the shifted upper part. -/
theorem append_toNat {n m : Nat} (x : BitVec n) (y : BitVec m) : (x ++ y).toNat = x.toNat * 2 ^ m + y.toNat := by
  rw [BitVec.toNat_append, ← Nat.shiftLeft_add_eq_or_of_lt y.isLt, Nat.shiftLeft_eq]

theorem regBits_toNat (r : RegIdx) : (regBits r).toNat = r.val := by
  simp only [regBits, BitVec.toNat_ofNat]; omega

/-- The encoded words as sums of their fields in their places (R63 to R68, R88). -/
theorem encodeR_toNat (op : BitVec 11) (rd rn rm : RegIdx) (shamt : Nat) :
    (encodeR op rd rn rm shamt).toNat =
      op.toNat * 2 ^ 21 + rm.val * 2 ^ 16 + shamt % 64 * 2 ^ 10 + rn.val * 2 ^ 5 + rd.val := by
  have : (encodeR op rd rn rm shamt).toNat =
      (op ++ regBits rm ++ BitVec.ofNat 6 shamt ++ regBits rn ++ regBits rd).toNat := rfl
  simp only [this, append_toNat, regBits_toNat, BitVec.toNat_ofNat]
  omega

theorem encodeI_toNat (op : BitVec 10) (rd rn : RegIdx) (imm : Int) :
    (encodeI op rd rn imm).toNat = op.toNat * 2 ^ 22 + (imm % 4096).toNat * 2 ^ 10 + rn.val * 2 ^ 5 + rd.val := by
  have : (encodeI op rd rn imm).toNat = (op ++ BitVec.ofInt 12 imm ++ regBits rn ++ regBits rd).toNat := rfl
  simp only [this, append_toNat, regBits_toNat, BitVec.toNat_ofInt]
  omega

theorem encodeCB_toNat (op : BitVec 8) (rt : RegIdx) (offset : Int) :
    (encodeCB op rt offset).toNat = op.toNat * 2 ^ 24 + (offset % 524288).toNat * 2 ^ 5 + rt.val := by
  have : (encodeCB op rt offset).toNat = (op ++ BitVec.ofInt 19 offset ++ regBits rt).toNat := rfl
  simp only [this, append_toNat, regBits_toNat, BitVec.toNat_ofInt]
  omega

theorem encodeIM_toNat (op : BitVec 9) (rd : RegIdx) (field shiftCode : Nat) :
    (encodeIM op rd field shiftCode).toNat =
      op.toNat * 2 ^ 23 + shiftCode % 4 * 2 ^ 21 + field % 65536 * 2 ^ 5 + rd.val := by
  have : (encodeIM op rd field shiftCode).toNat =
      (op ++ BitVec.ofNat 2 shiftCode ++ BitVec.ofNat 16 field ++ regBits rd).toNat := rfl
  simp only [this, append_toNat, regBits_toNat, BitVec.toNat_ofNat]
  omega

theorem encodeD_toNat (op : BitVec 11) (rt rn : RegIdx) (address op2 : Nat) :
    (encodeD op rt rn address op2).toNat =
      op.toNat * 2 ^ 21 + address % 512 * 2 ^ 12 + op2 % 4 * 2 ^ 10 + rn.val * 2 ^ 5 + rt.val := by
  have : (encodeD op rt rn address op2).toNat =
      (op ++ BitVec.ofNat 9 address ++ BitVec.ofNat 2 op2 ++ regBits rn ++ regBits rt).toNat := rfl
  simp only [this, append_toNat, regBits_toNat, BitVec.toNat_ofNat]
  omega

theorem encodeB_toNat (op : BitVec 6) (offset : Int) :
    (encodeB op offset).toNat = op.toNat * 2 ^ 26 + (offset % 67108864).toNat := by
  have : (encodeB op offset).toNat = (op ++ BitVec.ofInt 26 offset).toNat := rfl
  simp only [this, append_toNat, BitVec.toNat_ofInt]
  omega

theorem opcodeOf_toNat (w : InstrWord) : (opcodeOf w).toNat = w.toNat / 2 ^ 21 % 2 ^ 11 := slice_toNat w 21 11

end Sys2Proof
end

