-- ==== Sys2Proof/Laws/State.lean ====
section
/-! SUPPORT. The field lemmas: what each update of the state does to each field, true by unfolding the update once, so that
no later proof unfolds a record update. -/

namespace Sys2Proof.Machine

variable (s : State)

@[simp] theorem setReg_params (r : RegIdx) (v : BitVec s.params.width) : (s.setReg r v).params = s.params := rfl
@[simp] theorem setReg_entries (r : RegIdx) (v : BitVec s.params.width) : (s.setReg r v).entries = s.entries := rfl
@[simp] theorem setReg_phase (r : RegIdx) (v : BitVec s.params.width) : (s.setReg r v).phase = s.phase := rfl
@[simp] theorem setReg_haltSeen (r : RegIdx) (v : BitVec s.params.width) : (s.setReg r v).haltSeen = s.haltSeen := rfl
@[simp] theorem setReg_nextEntry (r : RegIdx) (v : BitVec s.params.width) : (s.setReg r v).nextEntry = s.nextEntry := rfl
@[simp] theorem setReg_image (r : RegIdx) (v : BitVec s.params.width) : (s.setReg r v).image = s.image := rfl
@[simp] theorem setReg_diag (r : RegIdx) (v : BitVec s.params.width) : (s.setReg r v).diag = s.diag := rfl
@[simp] theorem setReg_x (r : RegIdx) (v : BitVec s.params.width) : (s.setReg r v).x = s.x.set r.val v := rfl
@[simp] theorem setReg_mem (r : RegIdx) (v : BitVec s.params.width) : (s.setReg r v).mem = s.mem := rfl
@[simp] theorem setReg_pc (r : RegIdx) (v : BitVec s.params.width) : (s.setReg r v).pc = s.pc := rfl
@[simp] theorem setReg_cycle (r : RegIdx) (v : BitVec s.params.width) : (s.setReg r v).cycle = s.cycle := rfl
@[simp] theorem setReg_halted (r : RegIdx) (v : BitVec s.params.width) : (s.setReg r v).halted = s.halted := rfl
@[simp] theorem setReg_status (r : RegIdx) (v : BitVec s.params.width) : (s.setReg r v).status = s.status := rfl
@[simp] theorem setReg_trace (r : RegIdx) (v : BitVec s.params.width) : (s.setReg r v).trace = s.trace := rfl

@[simp] theorem store_params (a v : BitVec s.params.width) : (s.store a v).params = s.params := rfl
@[simp] theorem store_entries (a v : BitVec s.params.width) : (s.store a v).entries = s.entries := rfl
@[simp] theorem store_phase (a v : BitVec s.params.width) : (s.store a v).phase = s.phase := rfl
@[simp] theorem store_haltSeen (a v : BitVec s.params.width) : (s.store a v).haltSeen = s.haltSeen := rfl
@[simp] theorem store_nextEntry (a v : BitVec s.params.width) : (s.store a v).nextEntry = s.nextEntry := rfl
@[simp] theorem store_image (a v : BitVec s.params.width) : (s.store a v).image = s.image := rfl
@[simp] theorem store_diag (a v : BitVec s.params.width) : (s.store a v).diag = s.diag := rfl
@[simp] theorem store_x (a v : BitVec s.params.width) : (s.store a v).x = s.x := rfl
@[simp] theorem store_mem (a v : BitVec s.params.width) : (s.store a v).mem = memWrite s.mem a v := rfl
@[simp] theorem store_pc (a v : BitVec s.params.width) : (s.store a v).pc = s.pc := rfl
@[simp] theorem store_cycle (a v : BitVec s.params.width) : (s.store a v).cycle = s.cycle := rfl
@[simp] theorem store_halted (a v : BitVec s.params.width) : (s.store a v).halted = s.halted := rfl
@[simp] theorem store_status (a v : BitVec s.params.width) : (s.store a v).status = s.status := rfl
@[simp] theorem store_trace (a v : BitVec s.params.width) : (s.store a v).trace = s.trace := rfl

@[simp] theorem raise_params (kind : DiagKind) (i : Nat) : (s.raise kind i).params = s.params := rfl
@[simp] theorem raise_entries (kind : DiagKind) (i : Nat) : (s.raise kind i).entries = s.entries := rfl
@[simp] theorem raise_phase (kind : DiagKind) (i : Nat) : (s.raise kind i).phase = s.phase := rfl
@[simp] theorem raise_haltSeen (kind : DiagKind) (i : Nat) : (s.raise kind i).haltSeen = s.haltSeen := rfl
@[simp] theorem raise_nextEntry (kind : DiagKind) (i : Nat) : (s.raise kind i).nextEntry = s.nextEntry := rfl
@[simp] theorem raise_image (kind : DiagKind) (i : Nat) : (s.raise kind i).image = s.image := rfl
@[simp] theorem raise_diag (kind : DiagKind) (i : Nat) : (s.raise kind i).diag = s.diag ++ [⟨kind, i⟩] := rfl
@[simp] theorem raise_x (kind : DiagKind) (i : Nat) : (s.raise kind i).x = s.x := rfl
@[simp] theorem raise_mem (kind : DiagKind) (i : Nat) : (s.raise kind i).mem = s.mem := rfl
@[simp] theorem raise_pc (kind : DiagKind) (i : Nat) : (s.raise kind i).pc = s.pc := rfl
@[simp] theorem raise_cycle (kind : DiagKind) (i : Nat) : (s.raise kind i).cycle = s.cycle := rfl
@[simp] theorem raise_halted (kind : DiagKind) (i : Nat) : (s.raise kind i).halted = s.halted := rfl
@[simp] theorem raise_status (kind : DiagKind) (i : Nat) : (s.raise kind i).status = s.status := rfl
@[simp] theorem raise_trace (kind : DiagKind) (i : Nat) : (s.raise kind i).trace = s.trace := rfl

@[simp] theorem stop_params (st : Status) : (s.stop st).params = s.params := rfl
@[simp] theorem stop_entries (st : Status) : (s.stop st).entries = s.entries := rfl
@[simp] theorem stop_phase (st : Status) : (s.stop st).phase = s.phase := rfl
@[simp] theorem stop_haltSeen (st : Status) : (s.stop st).haltSeen = s.haltSeen := rfl
@[simp] theorem stop_nextEntry (st : Status) : (s.stop st).nextEntry = s.nextEntry := rfl
@[simp] theorem stop_image (st : Status) : (s.stop st).image = s.image := rfl
@[simp] theorem stop_diag (st : Status) : (s.stop st).diag = s.diag := rfl
@[simp] theorem stop_x (st : Status) : (s.stop st).x = s.x := rfl
@[simp] theorem stop_mem (st : Status) : (s.stop st).mem = s.mem := rfl
@[simp] theorem stop_pc (st : Status) : (s.stop st).pc = s.pc := rfl
@[simp] theorem stop_cycle (st : Status) : (s.stop st).cycle = s.cycle := rfl
@[simp] theorem stop_halted (st : Status) : (s.stop st).halted = s.halted := rfl
@[simp] theorem stop_status (st : Status) : (s.stop st).status = st := rfl
@[simp] theorem stop_trace (st : Status) : (s.stop st).trace = s.trace := rfl

@[simp] theorem halt_params : (s.halt).params = s.params := rfl
@[simp] theorem halt_entries : (s.halt).entries = s.entries := rfl
@[simp] theorem halt_phase : (s.halt).phase = s.phase := rfl
@[simp] theorem halt_haltSeen : (s.halt).haltSeen = s.haltSeen := rfl
@[simp] theorem halt_nextEntry : (s.halt).nextEntry = s.nextEntry := rfl
@[simp] theorem halt_image : (s.halt).image = s.image := rfl
@[simp] theorem halt_diag : (s.halt).diag = s.diag := rfl
@[simp] theorem halt_x : (s.halt).x = s.x := rfl
@[simp] theorem halt_mem : (s.halt).mem = s.mem := rfl
@[simp] theorem halt_pc : (s.halt).pc = s.pc := rfl
@[simp] theorem halt_cycle : (s.halt).cycle = s.cycle := rfl
@[simp] theorem halt_halted : (s.halt).halted = true := rfl
@[simp] theorem halt_status : (s.halt).status = s.status := rfl
@[simp] theorem halt_trace : (s.halt).trace = s.trace := rfl

@[simp] theorem retire_params (i : Instr) (npc : Int) : (s.retire i npc).params = s.params := rfl
@[simp] theorem retire_entries (i : Instr) (npc : Int) : (s.retire i npc).entries = s.entries := rfl
@[simp] theorem retire_phase (i : Instr) (npc : Int) : (s.retire i npc).phase = s.phase := rfl
@[simp] theorem retire_haltSeen (i : Instr) (npc : Int) : (s.retire i npc).haltSeen = s.haltSeen := rfl
@[simp] theorem retire_nextEntry (i : Instr) (npc : Int) : (s.retire i npc).nextEntry = s.nextEntry := rfl
@[simp] theorem retire_image (i : Instr) (npc : Int) : (s.retire i npc).image = s.image := rfl
@[simp] theorem retire_diag (i : Instr) (npc : Int) : (s.retire i npc).diag = s.diag := rfl
@[simp] theorem retire_x (i : Instr) (npc : Int) : (s.retire i npc).x = s.x := rfl
@[simp] theorem retire_mem (i : Instr) (npc : Int) : (s.retire i npc).mem = s.mem := rfl
@[simp] theorem retire_pc (i : Instr) (npc : Int) : (s.retire i npc).pc = npc := rfl
@[simp] theorem retire_cycle (i : Instr) (npc : Int) : (s.retire i npc).cycle = s.cycle + 1 := rfl
@[simp] theorem retire_halted (i : Instr) (npc : Int) : (s.retire i npc).halted = s.halted := rfl
@[simp] theorem retire_status (i : Instr) (npc : Int) : (s.retire i npc).status = s.status := rfl
@[simp] theorem retire_trace (i : Instr) (npc : Int) : (s.retire i npc).trace = s.trace ++ [retireEvent i s] := rfl

@[simp] theorem skipRecord_params : (skipRecord s).params = s.params := rfl
@[simp] theorem skipRecord_entries : (skipRecord s).entries = s.entries := rfl
@[simp] theorem skipRecord_phase : (skipRecord s).phase = s.phase := rfl
@[simp] theorem skipRecord_haltSeen : (skipRecord s).haltSeen = s.haltSeen := rfl
@[simp] theorem skipRecord_nextEntry : (skipRecord s).nextEntry = s.nextEntry := rfl
@[simp] theorem skipRecord_image : (skipRecord s).image = s.image := rfl
@[simp] theorem skipRecord_diag : (skipRecord s).diag = s.diag ++ [⟨.skippedRecord, s.pc.toNat⟩] := rfl
@[simp] theorem skipRecord_x : (skipRecord s).x = s.x := rfl
@[simp] theorem skipRecord_mem : (skipRecord s).mem = s.mem := rfl
@[simp] theorem skipRecord_pc : (skipRecord s).pc = s.pc + 1 := rfl
@[simp] theorem skipRecord_cycle : (skipRecord s).cycle = s.cycle := rfl
@[simp] theorem skipRecord_halted : (skipRecord s).halted = s.halted := rfl
@[simp] theorem skipRecord_status : (skipRecord s).status = s.status := rfl
@[simp] theorem skipRecord_trace : (skipRecord s).trace = s.trace := rfl

@[simp] theorem engineReset_params : (engineReset s).params = s.params := rfl
@[simp] theorem engineReset_entries : (engineReset s).entries = s.entries := rfl
@[simp] theorem engineReset_phase : (engineReset s).phase = .engine := rfl
@[simp] theorem engineReset_haltSeen : (engineReset s).haltSeen = s.haltSeen := rfl
@[simp] theorem engineReset_nextEntry : (engineReset s).nextEntry = s.nextEntry := rfl
@[simp] theorem engineReset_image : (engineReset s).image = s.image := rfl
@[simp] theorem engineReset_diag : (engineReset s).diag = s.diag := rfl
@[simp] theorem engineReset_x : (engineReset s).x = Vector.replicate 32 0 := rfl
@[simp] theorem engineReset_mem : (engineReset s).mem = initialMemory s.params s.image := rfl
@[simp] theorem engineReset_pc : (engineReset s).pc = 0 := rfl
@[simp] theorem engineReset_cycle : (engineReset s).cycle = 1 := rfl
@[simp] theorem engineReset_halted : (engineReset s).halted = false := rfl
@[simp] theorem engineReset_status : (engineReset s).status = .running := rfl
@[simp] theorem engineReset_trace : (engineReset s).trace = [] := rfl

@[simp] theorem decodeEntry_params (e : Entry) : (decodeEntry s e).params = s.params := rfl
@[simp] theorem decodeEntry_entries (e : Entry) : (decodeEntry s e).entries = s.entries := rfl
@[simp] theorem decodeEntry_phase (e : Entry) : (decodeEntry s e).phase = s.phase := rfl
@[simp] theorem decodeEntry_haltSeen (e : Entry) : (decodeEntry s e).haltSeen = haltSeenAfter s.haltSeen (buildRecord s.haltSeen s.nextEntry e) := rfl
@[simp] theorem decodeEntry_nextEntry (e : Entry) : (decodeEntry s e).nextEntry = s.nextEntry + 1 := rfl
@[simp] theorem decodeEntry_image (e : Entry) : (decodeEntry s e).image = s.image ++ [buildRecord s.haltSeen s.nextEntry e] := rfl
@[simp] theorem decodeEntry_diag (e : Entry) : (decodeEntry s e).diag = s.diag ++ decodeDiag s.haltSeen s.nextEntry e := rfl
@[simp] theorem decodeEntry_x (e : Entry) : (decodeEntry s e).x = s.x := rfl
@[simp] theorem decodeEntry_mem (e : Entry) : (decodeEntry s e).mem = s.mem := rfl
@[simp] theorem decodeEntry_pc (e : Entry) : (decodeEntry s e).pc = s.pc := rfl
@[simp] theorem decodeEntry_cycle (e : Entry) : (decodeEntry s e).cycle = s.cycle := rfl
@[simp] theorem decodeEntry_halted (e : Entry) : (decodeEntry s e).halted = s.halted := rfl
@[simp] theorem decodeEntry_status (e : Entry) : (decodeEntry s e).status = s.status := rfl
@[simp] theorem decodeEntry_trace (e : Entry) : (decodeEntry s e).trace = s.trace := rfl

/-- Reset is the launch of the empty image under the default parameters (R191, D19). -/
theorem reset_eq_launch : State.reset = launch Config.defaultParams [] := rfl

end Sys2Proof.Machine
end

