-- ==== Sys2Proof/Laws/Memory.lean ====
section
/-! SUPPORT. What the memory operations can do: reading a bank after putting one, the two primitives together, and that every
operation keeps the canonical form. -/

namespace Sys2Proof.Machine

variable {width : Nat}

@[simp] theorem bankAt_nil (a : BitVec width) : bankAt [] a = none := rfl

/-- Reading the key just put gives the bank put (R46). -/
@[simp] theorem bankAt_putBank_same (m : Memory width) (a : BitVec width) (b : Bank width) :
    bankAt (putBank m a b) a = some b := by
  induction m with
  | nil => simp [putBank, bankAt]
  | cons p rest ih =>
    simp only [putBank]
    split
    · simp [bankAt]
    · split
      · simp [bankAt]
      · rename_i hk _
        simp [bankAt, hk, ih]

/-- Putting a bank leaves every other key as it was (R41). -/
theorem bankAt_putBank_other (m : Memory width) {a k : BitVec width} (b : Bank width) (h : k ≠ a) :
    bankAt (putBank m a b) k = bankAt m k := by
  induction m with
  | nil => simp [putBank, bankAt, Ne.symm h]
  | cons p rest ih =>
    simp only [putBank]
    split
    · rename_i hk
      simp [bankAt, hk, Ne.symm h]
    · split
      · simp [bankAt, Ne.symm h]
      · simp only [bankAt, ih]

/-- Putting a bank, at any key. -/
theorem bankAt_putBank (m : Memory width) (a k : BitVec width) (b : Bank width) :
    bankAt (putBank m a b) k = if k = a then some b else bankAt m k := by
  by_cases h : k = a
  · subst h; simp
  · simp [h, bankAt_putBank_other m b h]

/-- What stands in memory after putting a bank: the bank put, or an entry that stood there before. -/
theorem mem_putBank {m : Memory width} {a : BitVec width} {b : Bank width} {p : BitVec width × Bank width}
    (h : p ∈ putBank m a b) : p = (a, b) ∨ p ∈ m := by
  induction m with
  | nil => simpa [putBank] using h
  | cons q rest ih =>
    simp only [putBank] at h
    split at h
    · simp only [List.mem_cons] at h ⊢; tauto
    · split at h
      · simp only [List.mem_cons] at h ⊢; tauto
      · rcases List.mem_cons.1 h with h | h
        · simp [h]
        · rcases ih h with h | h <;> simp [h]

/-- Putting a bank keeps the canonical form. -/
theorem putBank_wf {m : Memory width} (hm : Memory.wf m) (a : BitVec width) (b : Bank width) :
    Memory.wf (putBank m a b) := by
  induction m with
  | nil => simp [putBank, Memory.wf]
  | cons q rest ih =>
    have hq := List.pairwise_cons.1 hm
    simp only [putBank]
    split
    · rename_i hk
      exact List.pairwise_cons.2 ⟨fun p hp => hk ▸ hq.1 p hp, hq.2⟩
    · split
      · rename_i hlt
        refine List.pairwise_cons.2 ⟨fun p hp => ?_, hm⟩
        rcases List.mem_cons.1 hp with rfl | hp
        · exact hlt
        · exact Int.lt_trans hlt (hq.1 p hp)
      · rename_i hk hlt
        refine List.pairwise_cons.2 ⟨fun p hp => ?_, ih hq.2⟩
        rcases mem_putBank hp with rfl | hp
        · exact lt_of_le_of_ne (not_lt.1 hlt) (fun h => hk (BitVec.eq_of_toInt_eq h))
        · exact hq.1 p hp

/-- In canonical memory the listed bank of a key is the bank the key has. -/
theorem bankAt_eq_some_iff {m : Memory width} (hm : Memory.wf m) (a : BitVec width) (b : Bank width) :
    bankAt m a = some b ↔ (a, b) ∈ m := by
  induction m with
  | nil => simp
  | cons q rest ih =>
    have hq := List.pairwise_cons.1 hm
    obtain ⟨k, c⟩ := q
    simp only [bankAt, List.mem_cons, Prod.mk.injEq]
    split
    · rename_i hk
      subst hk
      constructor
      · intro h; simp_all
      · rintro (⟨-, rfl⟩ | h)
        · rfl
        · exact absurd (hq.1 _ h) (by simp)
    · rename_i hk
      rw [ih hq.2]
      constructor
      · exact Or.inr
      · rintro (⟨rfl, -⟩ | h)
        · exact absurd rfl hk
        · exact h

/-- No key has a bank exactly when memory lists nothing. -/
theorem bankAt_none_iff_nil (m : Memory width) : (∀ a, bankAt m a = none) ↔ m = [] := by
  constructor
  · intro h
    cases m with
    | nil => rfl
    | cons q rest => simpa [bankAt] using h q.1
  · rintro rfl; simp

/-- The memory write primitive, at any key: the bank at `a` exists with slot 0 the value stored, and every other bank is as
it was (R46). -/
theorem bankAt_memWrite (m : Memory width) (a k v : BitVec width) :
    bankAt (memWrite m a v) k =
      if k = a then some (((bankAt m a).getD (freshBank width)).set 0 v) else bankAt m k := by
  simp [memWrite, bankAt_putBank]

/-- Slot 0 of the key just written is the value stored (R45, R46). -/
@[simp] theorem memRead_memWrite_same (m : Memory width) (a v : BitVec width) : memRead (memWrite m a v) a = v := by
  simp [memRead, bankAt_memWrite]

/-- A write leaves what other keys read as (R41). -/
theorem memRead_memWrite_other (m : Memory width) {a k : BitVec width} (v : BitVec width) (h : k ≠ a) :
    memRead (memWrite m a v) k = memRead m k := by
  simp [memRead, bankAt_memWrite, h]

/-- A write keeps the canonical form. -/
theorem memWrite_wf {m : Memory width} (hm : Memory.wf m) (a v : BitVec width) : Memory.wf (memWrite m a v) :=
  putBank_wf hm _ _

/-- Reset's memory has the canonical form. -/
theorem reset_mem_wf : Memory.wf State.reset.mem := List.Pairwise.nil

/-- Slots 1 to 7 of every bank are 0 (R32). -/
def UpperZero (m : Memory width) : Prop := ∀ p ∈ m, ∀ (j : Nat) (h : j < 8), j ≠ 0 → p.2[j] = 0

theorem upperZero_nil : UpperZero ([] : Memory width) := by simp [UpperZero]

theorem upperZero_bankAt {m : Memory width} (h : UpperZero m) {a : BitVec width} {b : Bank width}
    (hb : bankAt m a = some b) (j : Nat) (hj : j < 8) (h0 : j ≠ 0) : b[j] = 0 := by
  induction m with
  | nil => simp at hb
  | cons q rest ih =>
    obtain ⟨k, c⟩ := q
    simp only [bankAt] at hb
    split at hb
    · obtain rfl := Option.some.inj hb
      exact h _ List.mem_cons_self j hj h0
    · exact ih (fun p hp => h p (by simp [hp])) hb

theorem upperZero_putBank {m : Memory width} (h : UpperZero m) {a : BitVec width} {b : Bank width}
    (hb : ∀ (j : Nat) (hj : j < 8), j ≠ 0 → b[j] = 0) : UpperZero (putBank m a b) := by
  intro p hp j hj h0
  rcases mem_putBank hp with rfl | hp
  · exact hb j hj h0
  · exact h p hp j hj h0

/-- A write stores to slot 0 only, so slots 1 to 7 stay 0 (R32). -/
theorem upperZero_memWrite {m : Memory width} (h : UpperZero m) (a v : BitVec width) : UpperZero (memWrite m a v) := by
  refine upperZero_putBank h (fun j hj h0 => ?_)
  rw [Vector.getElem_set_ne (h := Ne.symm h0)]
  cases hb : bankAt m a with
  | none => simp [freshBank]
  | some b => simpa using upperZero_bankAt h hb j hj h0

/-- What the preload of one record leaves at each key: at the record's address its literal, elsewhere what was there (R48). -/
theorem bankAt_preloadRecord (m : Memory width) (record : Record) (k : BitVec width) :
    bankAt (preloadRecord m record) k =
      match record.fields with
      | .rawData literal =>
        if k = BitVec.ofNat width record.address then some ((freshBank width).set 0 (widen width literal)) else bankAt m k
      | _ => bankAt m k := by
  unfold preloadRecord
  split <;> simp_all [bankAt_putBank]

theorem preloadRecord_wf {m : Memory width} (hm : Memory.wf m) (record : Record) : Memory.wf (preloadRecord m record) := by
  unfold preloadRecord
  split
  · exact putBank_wf hm _ _
  · exact hm

theorem upperZero_preloadRecord {m : Memory width} (hm : UpperZero m) (record : Record) :
    UpperZero (preloadRecord m record) := by
  unfold preloadRecord
  split
  · refine upperZero_putBank hm (fun j hj h0 => ?_)
    rw [Vector.getElem_set_ne (h := Ne.symm h0)]
    simp [freshBank]
  · exact hm

/-- Data memory at engine reset is canonical, and its upper slots are 0, preloaded or not. -/
theorem initialMemory_wf (p : Params) (image : List Record) : Memory.wf (initialMemory p image) := by
  have h : ∀ (l : List Record) (m : Memory p.width), Memory.wf m → Memory.wf (l.foldl preloadRecord m) := by
    intro l
    induction l with
    | nil => exact fun _ h => h
    | cons r rest ih => exact fun m hm => ih _ (preloadRecord_wf hm r)
  unfold initialMemory
  split
  · exact h _ _ List.Pairwise.nil
  · exact List.Pairwise.nil

theorem upperZero_initialMemory (p : Params) (image : List Record) : UpperZero (initialMemory p image) := by
  have h : ∀ (l : List Record) (m : Memory p.width), UpperZero m → UpperZero (l.foldl preloadRecord m) := by
    intro l
    induction l with
    | nil => exact fun _ h => h
    | cons r rest ih => exact fun m hm => ih _ (upperZero_preloadRecord hm r)
  unfold initialMemory
  split
  · exact h _ _ upperZero_nil
  · exact upperZero_nil

end Sys2Proof.Machine
end

