-- ==== Sys2Proof/Laws/PerInstr.lean ====
section
/-! SUPPORT. A statement about every instruction as syntax, one lemma per constructor: the opcode field of the encoded word is
classified as the instruction's own mnemonic and format, whatever its operands are. It is the part of the round trip that
differs from row to row. -/

namespace Sys2Proof.Laws.EncodedOpcode

/-- The opcode field of the encoded word selects the instruction's own row (R72, R88). -/
def Statement (i : Instr) : Prop := classify (opcodeOf (encode i)) = some (i.mnemonic, i.mnemonic.format)

theorem b (offset : Int) : Statement (.b offset) := by
  refine classify_of_row (lo := 160) (hi := 191) (by simp [classifierRows, Instr.mnemonic, Mnemonic.format]) ?_
  simp only [opcodeOf_toNat, encode, encodeB_toNat, BitVec.reduceToNat]
  omega

theorem and (rd rn rm : RegIdx) (shamt : Nat) : Statement (.and rd rn rm shamt) := by
  refine classify_of_row (lo := 1104) (hi := 1104) (by simp [classifierRows, Instr.mnemonic, Mnemonic.format]) ?_
  simp only [opcodeOf_toNat, encode, encodeR_toNat, BitVec.reduceToNat]
  omega

theorem add (rd rn rm : RegIdx) (shamt : Nat) : Statement (.add rd rn rm shamt) := by
  refine classify_of_row (lo := 1112) (hi := 1112) (by simp [classifierRows, Instr.mnemonic, Mnemonic.format]) ?_
  simp only [opcodeOf_toNat, encode, encodeR_toNat, BitVec.reduceToNat]
  omega

theorem addi (rd rn : RegIdx) (imm : Int) : Statement (.addi rd rn imm) := by
  refine classify_of_row (lo := 1160) (hi := 1161) (by simp [classifierRows, Instr.mnemonic, Mnemonic.format]) ?_
  simp only [opcodeOf_toNat, encode, encodeI_toNat, BitVec.reduceToNat]
  omega

theorem orr (rd rn rm : RegIdx) (shamt : Nat) : Statement (.orr rd rn rm shamt) := by
  refine classify_of_row (lo := 1360) (hi := 1360) (by simp [classifierRows, Instr.mnemonic, Mnemonic.format]) ?_
  simp only [opcodeOf_toNat, encode, encodeR_toNat, BitVec.reduceToNat]
  omega

theorem cbz (rt : RegIdx) (offset : Int) : Statement (.cbz rt offset) := by
  refine classify_of_row (lo := 1440) (hi := 1447) (by simp [classifierRows, Instr.mnemonic, Mnemonic.format]) ?_
  simp only [opcodeOf_toNat, encode, encodeCB_toNat, BitVec.reduceToNat]
  omega

theorem cbnz (rt : RegIdx) (offset : Int) : Statement (.cbnz rt offset) := by
  refine classify_of_row (lo := 1448) (hi := 1455) (by simp [classifierRows, Instr.mnemonic, Mnemonic.format]) ?_
  simp only [opcodeOf_toNat, encode, encodeCB_toNat, BitVec.reduceToNat]
  omega

theorem sub (rd rn rm : RegIdx) (shamt : Nat) : Statement (.sub rd rn rm shamt) := by
  refine classify_of_row (lo := 1624) (hi := 1624) (by simp [classifierRows, Instr.mnemonic, Mnemonic.format]) ?_
  simp only [opcodeOf_toNat, encode, encodeR_toNat, BitVec.reduceToNat]
  omega

theorem subi (rd rn : RegIdx) (imm : Int) : Statement (.subi rd rn imm) := by
  refine classify_of_row (lo := 1672) (hi := 1673) (by simp [classifierRows, Instr.mnemonic, Mnemonic.format]) ?_
  simp only [opcodeOf_toNat, encode, encodeI_toNat, BitVec.reduceToNat]
  omega

theorem movz (rd : RegIdx) (field shiftCode : Nat) : Statement (.movz rd field shiftCode) := by
  refine classify_of_row (lo := 1684) (hi := 1687) (by simp [classifierRows, Instr.mnemonic, Mnemonic.format]) ?_
  simp only [opcodeOf_toNat, encode, encodeIM_toNat, BitVec.reduceToNat]
  omega

theorem movk (rd : RegIdx) (field shiftCode : Nat) : Statement (.movk rd field shiftCode) := by
  refine classify_of_row (lo := 1940) (hi := 1943) (by simp [classifierRows, Instr.mnemonic, Mnemonic.format]) ?_
  simp only [opcodeOf_toNat, encode, encodeIM_toNat, BitVec.reduceToNat]
  omega

theorem lsr (rd rn rm : RegIdx) (shamt : Nat) : Statement (.lsr rd rn rm shamt) := by
  refine classify_of_row (lo := 1690) (hi := 1690) (by simp [classifierRows, Instr.mnemonic, Mnemonic.format]) ?_
  simp only [opcodeOf_toNat, encode, encodeR_toNat, BitVec.reduceToNat]
  omega

theorem lsl (rd rn rm : RegIdx) (shamt : Nat) : Statement (.lsl rd rn rm shamt) := by
  refine classify_of_row (lo := 1691) (hi := 1691) (by simp [classifierRows, Instr.mnemonic, Mnemonic.format]) ?_
  simp only [opcodeOf_toNat, encode, encodeR_toNat, BitVec.reduceToNat]
  omega

theorem asr (rd rn rm : RegIdx) (shamt : Nat) : Statement (.asr rd rn rm shamt) := by
  refine classify_of_row (lo := 1692) (hi := 1692) (by simp [classifierRows, Instr.mnemonic, Mnemonic.format]) ?_
  simp only [opcodeOf_toNat, encode, encodeR_toNat, BitVec.reduceToNat]
  omega

theorem eor (rd rn rm : RegIdx) (shamt : Nat) : Statement (.eor rd rn rm shamt) := by
  refine classify_of_row (lo := 1872) (hi := 1872) (by simp [classifierRows, Instr.mnemonic, Mnemonic.format]) ?_
  simp only [opcodeOf_toNat, encode, encodeR_toNat, BitVec.reduceToNat]
  omega

theorem stur (rt rn : RegIdx) (address op2 : Nat) : Statement (.stur rt rn address op2) := by
  refine classify_of_row (lo := 1984) (hi := 1984) (by simp [classifierRows, Instr.mnemonic, Mnemonic.format]) ?_
  simp only [opcodeOf_toNat, encode, encodeD_toNat, BitVec.reduceToNat]
  omega

theorem ldur (rt rn : RegIdx) (address op2 : Nat) : Statement (.ldur rt rn address op2) := by
  refine classify_of_row (lo := 1986) (hi := 1986) (by simp [classifierRows, Instr.mnemonic, Mnemonic.format]) ?_
  simp only [opcodeOf_toNat, encode, encodeD_toNat, BitVec.reduceToNat]
  omega

theorem brk : Statement .brk := by unfold Statement; decide

theorem nop : Statement .nop := by unfold Statement; decide

end Sys2Proof.Laws.EncodedOpcode
end

