-- ==== Sys2Proof/Laws/Views.lean ====
section
/-! SUPPORT. The signed views under the updates: what each named operation does to the value of a register, to the slots of a
key, and to what a load gives; and what retiring an instruction is. -/

namespace Sys2Proof.Machine

variable (s : State)

/-- The register written reads as the value written (R13). -/
@[simp] theorem reg_setReg_same (r : RegIdx) (v : BitVec s.params.width) : (s.setReg r v).reg r = v := by
  simp [State.reg, State.setReg]

/-- Writing one register leaves the others (R13). -/
theorem reg_setReg_other {r q : RegIdx} (v : BitVec s.params.width) (h : q ≠ r) : (s.setReg r v).reg q = s.reg q := by
  have : r.val ≠ q.val := fun e => h (Fin.ext e.symm)
  simp [State.reg, State.setReg, this]

@[simp] theorem regVal_setReg_same (r : RegIdx) (v : BitVec s.params.width) : (s.setReg r v).regVal r = v.toInt := by
  rw [State.regVal, reg_setReg_same]; rfl

theorem regVal_setReg_other {r q : RegIdx} (v : BitVec s.params.width) (h : q ≠ r) :
    (s.setReg r v).regVal q = s.regVal q := by
  rw [State.regVal, reg_setReg_other s v h]; rfl

theorem sameRegsBut_setReg (r : RegIdx) (v : BitVec s.params.width) : SameRegsBut r s (s.setReg r v) :=
  fun _ h => regVal_setReg_other s v h

@[simp] theorem regVal_store (a v : BitVec s.params.width) (r : RegIdx) : (s.store a v).regVal r = s.regVal r := rfl
@[simp] theorem regVal_raise (kind : DiagKind) (i : Nat) (r : RegIdx) : (s.raise kind i).regVal r = s.regVal r := rfl
@[simp] theorem regVal_stop (st : Status) (r : RegIdx) : (s.stop st).regVal r = s.regVal r := rfl
@[simp] theorem regVal_halt (r : RegIdx) : s.halt.regVal r = s.regVal r := rfl
@[simp] theorem regVal_retire (i : Instr) (npc : Int) (r : RegIdx) : (s.retire i npc).regVal r = s.regVal r := rfl
@[simp] theorem regVal_skipRecord (r : RegIdx) : (skipRecord s).regVal r = s.regVal r := rfl

@[simp] theorem slots_setReg (r : RegIdx) (v : BitVec s.params.width) (key : Int) :
    (s.setReg r v).slots key = s.slots key := rfl
@[simp] theorem slots_raise (kind : DiagKind) (i : Nat) (key : Int) : (s.raise kind i).slots key = s.slots key := rfl
@[simp] theorem slots_stop (st : Status) (key : Int) : (s.stop st).slots key = s.slots key := rfl
@[simp] theorem slots_halt (key : Int) : s.halt.slots key = s.slots key := rfl
@[simp] theorem slots_retire (i : Instr) (npc : Int) (key : Int) : (s.retire i npc).slots key = s.slots key := rfl
@[simp] theorem slots_skipRecord (key : Int) : (skipRecord s).slots key = s.slots key := rfl

/-- A store, at any key: the bank of the key stored to exists with its slot 0 the value, every other key is as it was (R46). -/
theorem slots_store (a v : BitVec s.params.width) (key : Int) :
    (s.store a v).slots key =
      if BitVec.ofInt s.params.width key = a
      then some (signedValues (((bankAt s.mem a).getD (freshBank s.params.width)).set 0 v))
      else s.slots key := by
  show Option.map signedValues (bankAt (memWrite s.mem a v) (BitVec.ofInt s.params.width key)) = _
  rw [bankAt_memWrite]
  split <;> rfl

/-- Slots read through the signed values. -/
@[simp] theorem signedValues_getElem {width n : Nat} (v : Vector (BitVec width) n) (i : Nat) (h : i < n) :
    (signedValues v)[i] = v[i].toInt := by
  simp [signedValues]

theorem signedValues_eq_map {width n : Nat} (v : Vector (BitVec width) n) : signedValues v = v.map BitVec.toInt := by
  ext i h; simp

@[simp] theorem registerSnapshot_getElem (r : RegIdx) : (registerSnapshot s)[r.val] = s.regVal r := by
  simp [registerSnapshot, State.regVal, State.reg]

/-- Two states that agree on `pc`, `cycle` and `trace` but for an effect: retiring the later one is retiring from the
earlier one (R106, R110). -/
theorem retire_retiredTo {s t : State} (i : Instr) (npc : Int) (hp : t.pc = s.pc) (hc : t.cycle = s.cycle)
    (ht : t.trace = s.trace) : RetiredTo i npc s (t.retire i npc) := by
  refine ⟨rfl, by simp [hc], retireEvent i t, by simp [ht], by simp [retireEvent, hc], ?_, rfl, rfl, ?_, rfl⟩
  · simp [retireEvent, instrAddress, hp, Config.base, Config.stride]
  · intro r; simp [retireEvent]

/-- What the five traced-only instructions can do (R105). -/
theorem incompleteOp_cases (i : Instr) :
    (s.params.incompleteOps = .tracedOnly ∧ incompleteOp i s = s.retire i (nextIndex s)) ∨
      (s.params.incompleteOps = .refuse ∧ incompleteOp i s = s.stop (.refused i.mnemonic)) := by
  unfold incompleteOp
  cases s.params.incompleteOps <;> simp

theorem incompleteOp_tracedOnly (i : Instr) (h : s.params.incompleteOps = .tracedOnly) :
    incompleteOp i s = s.retire i (nextIndex s) := by simp [incompleteOp, h]

theorem incompleteOp_refuse (i : Instr) (h : s.params.incompleteOps = .refuse) :
    incompleteOp i s = s.stop (.refused i.mnemonic) := by simp [incompleteOp, h]

end Sys2Proof.Machine
end

