-- ==== Sys2Proof/Laws/Step.lean ====
section
/-! SUPPORT. What a step can do, said once: the effects that retire, the one inversion of `exec`, and the one inversion of
`step`. Invariants are proved from these and unfold neither. -/

namespace Sys2Proof.Machine

/-- The states an effect can make before it retires: the same state, one register written, one bank written, or `halted`
set; no effect does more than one of these (R103). -/
inductive Effect (s : State) : State → Prop where
  | none : Effect s s
  | register (r : RegIdx) (v : BitVec s.params.width) : Effect s (s.setReg r v)
  | bank (a v : BitVec s.params.width) : Effect s (s.store a v)
  | halted : Effect s s.halt

/-- Every instruction answers a next state: it retires after one effect, or, under `INCOMPLETE_OPS = refuse`, stops the run
(R103, R105). -/
theorem exec_cases (i : Instr) (s : State) :
    ∃ t, exec i s = .next t ∧
      ((∃ u npc, Effect s u ∧ t = u.retire i npc) ∨
        (s.params.incompleteOps = .refuse ∧ t = s.stop (.refused i.mnemonic))) := by
  cases i with
  | b offset => exact ⟨_, rfl, .inl ⟨_, _, .none, rfl⟩⟩
  | and rd rn rm shamt => exact ⟨_, rfl, .inl ⟨_, _, .register .., rfl⟩⟩
  | add rd rn rm shamt => exact ⟨_, rfl, .inl ⟨_, _, .register .., rfl⟩⟩
  | addi rd rn imm => exact ⟨_, rfl, .inl ⟨_, _, .register .., rfl⟩⟩
  | orr rd rn rm shamt => exact ⟨_, rfl, .inl ⟨_, _, .register .., rfl⟩⟩
  | cbz rt offset => exact ⟨_, rfl, .inl ⟨_, _, .none, rfl⟩⟩
  | cbnz rt offset => exact ⟨_, rfl, .inl ⟨_, _, .none, rfl⟩⟩
  | sub rd rn rm shamt => exact ⟨_, rfl, .inl ⟨_, _, .register .., rfl⟩⟩
  | subi rd rn imm => exact ⟨_, rfl, .inl ⟨_, _, .register .., rfl⟩⟩
  | eor rd rn rm shamt => exact ⟨_, rfl, .inl ⟨_, _, .register .., rfl⟩⟩
  | stur rt rn address op2 => exact ⟨_, rfl, .inl ⟨_, _, .bank .., rfl⟩⟩
  | ldur rt rn address op2 => exact ⟨_, rfl, .inl ⟨_, _, .register .., rfl⟩⟩
  | brk => exact ⟨_, rfl, .inl ⟨_, _, .halted, rfl⟩⟩
  | nop => exact ⟨_, rfl, .inl ⟨_, _, .none, rfl⟩⟩
  | movz | movk | lsr | lsl | asr =>
    refine ⟨_, rfl, ?_⟩
    rcases incompleteOp_cases s _ with ⟨-, h⟩ | ⟨hr, h⟩
    · exact .inl ⟨s, _, .none, h⟩
    · exact .inr ⟨hr, h⟩

/-- What one step can do, whatever the state. -/
inductive StepKind (s : State) : State → Prop where
  /-- An entry is decoded (R81). -/
  | decode (e : Entry) (phase : s.phase = .decoding) (entry : s.entries[s.nextEntry]? = some e) :
      StepKind s (decodeEntry s e)
  /-- The decode pass is over and the engine is reset (R190). -/
  | reset (phase : s.phase = .decoding) (done : s.entries.length ≤ s.nextEntry) : StepKind s (engineReset s)
  /-- The run has ended and the state stays (R186). -/
  | ended (phase : s.phase = .engine) (status : s.status ≠ .running) : StepKind s s
  /-- The run stops, with only the status changed (R105, R108). -/
  | stop (st : Status) (phase : s.phase = .engine) (status : s.status = .running) (stopped : st ≠ .running) :
      StepKind s (s.stop st)
  /-- A record is skipped (R104). -/
  | skip (record : Record) (active : Active s) (fetched : fetch s = some record)
      (unclassified : engineInstr record = none) : StepKind s (skipRecord s)
  /-- An instruction retires after one effect (R103, R106). -/
  | retire (record : Record) (i : Instr) (npc : Int) (u : State) (active : Active s) (fetched : fetch s = some record)
      (instr : engineInstr record = some i) (effect : Effect s u) (ran : exec i s = .next (u.retire i npc)) :
      StepKind s (u.retire i npc)

/-- Every step answers a next state of one of these kinds. -/
theorem step_cases (s : State) : ∃ t, step s = .next t ∧ StepKind s t := by
  cases hp : s.phase with
  | decoding =>
    refine ⟨decodeStep s, by simp [step, coreStep, hp], ?_⟩
    unfold decodeStep
    split
    · rename_i e he; exact .decode e hp he
    · rename_i he; exact .reset hp (by simpa using he)
  | engine =>
    by_cases hs : s.status = .running
    · by_cases hh : s.halted = true
      · exact ⟨s.stop .halted, by simp [step, coreStep, engineStep, hp, hs, hh], .stop _ hp hs (by simp)⟩
      · have ha : Active s := ⟨hp, hs, by simpa using hh⟩
        cases hf : fetch s with
        | none => exact ⟨s.stop .outOfBounds, by simp [step, coreStep, engineStep, hp, hs, hh, hf], .stop _ hp hs (by simp)⟩
        | some record =>
          have hstep : step s = runRecord record s := by simp [step, coreStep, engineStep, hp, hs, hh, hf]
          cases hi : engineInstr record with
          | none => exact ⟨skipRecord s, by simp [hstep, runRecord, hi], .skip record ha hf hi⟩
          | some i =>
            by_cases hd : dataStops s record = true
            · exact ⟨s.stop (.faulted .dataExecuted), by simp [hstep, runRecord, hi, hd], .stop _ hp hs (by simp)⟩
            · obtain ⟨t, ht, ⟨u, npc, he, rfl⟩ | ⟨-, rfl⟩⟩ := exec_cases i s
              · exact ⟨_, by simpa [hstep, runRecord, hi, hd] using ht, .retire record i npc u ha hf hi he ht⟩
              · exact ⟨_, by simpa [hstep, runRecord, hi, hd] using ht, .stop _ hp hs (by simp)⟩
    · exact ⟨s, by simp [step, coreStep, engineStep, hp, hs], .ended hp hs⟩

/-- The kind of a step that is known to answer `t`. -/
theorem step_kind {s t : State} (h : step s = .next t) : StepKind s t := by
  obtain ⟨u, hu, hk⟩ := step_cases s
  rw [hu] at h
  cases h
  exact hk

/-- The parts of the state no effect touches (R103). -/
theorem Effect.sameProgram {s u : State} (h : Effect s u) : SameProgram s u := by
  cases h <;> exact ⟨rfl, rfl, rfl, rfl, rfl, rfl⟩

theorem Effect.pc_eq {s u : State} (h : Effect s u) : u.pc = s.pc := by cases h <;> rfl
theorem Effect.cycle_eq {s u : State} (h : Effect s u) : u.cycle = s.cycle := by cases h <;> rfl
theorem Effect.trace_eq {s u : State} (h : Effect s u) : u.trace = s.trace := by cases h <;> rfl
theorem Effect.status_eq {s u : State} (h : Effect s u) : u.status = s.status := by cases h <;> rfl
theorem Effect.diag_eq {s u : State} (h : Effect s u) : u.diag = s.diag := by cases h <;> rfl

theorem Effect.mem_wf {s u : State} (h : Effect s u) (hm : Memory.wf s.mem) : Memory.wf u.mem := by
  cases h with
  | bank a v => exact memWrite_wf hm a v
  | none | register | halted => exact hm

theorem Effect.upperZero {s u : State} (h : Effect s u) (hm : UpperZero s.mem) : UpperZero u.mem := by
  cases h with
  | bank a v => exact upperZero_memWrite hm a v
  | none | register | halted => exact hm

end Sys2Proof.Machine
end

