-- ==== Sys2Proof/Laws/Run.lean ====
section
/-! SUPPORT. Runs: no step, one step more, and the induction that carries an invariant along a run. -/

namespace Sys2Proof.Machine

@[simp] theorem steps_zero {s t : State} : Steps 0 s t ↔ s = t := by
  simp only [Steps, Host.Core.run]
  exact ⟨fun h => by cases h; rfl, fun h => by rw [h]⟩

/-- A run of one step more begins with a step. -/
theorem steps_succ {k : Nat} {s t : State} : Steps (k + 1) s t ↔ ∃ u, step s = .next u ∧ Steps k u t := by
  obtain ⟨u, hu, -⟩ := step_cases s
  have hcore : Sys2Proof.core.step s = .next u := hu
  simp only [Steps, Host.Core.run, hcore, hu]
  constructor
  · exact fun h => ⟨u, rfl, h⟩
  · rintro ⟨v, hv, h⟩
    cases hv
    exact h

/-- What holds at the start and is kept by every step holds at the end of every run. -/
theorem steps_invariant {P : State → Prop} (keeps : ∀ s t, P s → step s = .next t → P t) :
    ∀ {k : Nat} {s t : State}, Steps k s t → P s → P t := by
  intro k
  induction k with
  | zero => intro s t h hs; exact steps_zero.1 h ▸ hs
  | succ k ih =>
    intro s t h hs
    obtain ⟨u, hu, hr⟩ := steps_succ.1 h
    exact ih hr (keeps s u hs hu)

end Sys2Proof.Machine
end

