-- ==== Sys2Proof/Tests/Slice0.lean ====
section
/-! SUPPORT. Tests: expected values are the spec's (95_test_vectors.md and the rules named), never the model's own answers.
First the well-formedness checks, then one word per instruction, then single steps, then the parts of the decoder, then for
every obligation with hypotheses a witness that meets them. -/

namespace Sys2Proof.Tests

open Sys2Proof Sys2Proof.Machine

/-! Helpers. -/

/-- A booted core whose image is these words, their lines left empty. -/
def booted (p : Params) (words : List InstrWord) : State := boot p (words.map (Entry.word ""))

/-- A booted core at the default parameters. -/
def core0 (words : List InstrWord) : State := booted Config.defaultParams words

/-- Registers set to signed values, one after another. -/
def setRegs (s : State) : List (RegIdx × Int) → State
  | [] => s
  | (r, v) :: rest => setRegs (s.setReg r (widen s.params.width v)) rest

/-- A slot stored. -/
def setSlot (s : State) (key value : Int) : State :=
  s.store (BitVec.ofInt s.params.width key) (widen s.params.width value)

/-- The engine moved to an index. -/
def atIndex (s : State) (i : Int) : State := { s with pc := i }

/-- What one step leaves, seen through `f`; nothing where the step is no next state. -/
def afterStep {α : Type} (s : State) (f : State → α) : Option α :=
  match step s with
  | .next t => some (f t)
  | .fault _ => none
  | .refused _ => none

/-- A register and `pc`. -/
def regPc (r : RegIdx) (t : State) : Int × Int := (t.regVal r, t.pc)

/-- The newest event's cycle, address, mnemonic and operands. -/
def event (t : State) : Option (Nat × Int × Mnemonic × String) :=
  t.trace.getLast?.map (fun e => (e.cycle, e.address, e.mnemonic, e.operands))

/-- The parameters with `INCOMPLETE_OPS = refuse`, with `DATA_EXEC = fault`, and with `PRELOAD_DATA = true`. -/
def refuseParams : Params := { incompleteOps := .refuse }
def faultParams : Params := { dataExec := .fault }
def preloadParams : Params := { preloadData := true }

/-! WellFormed: an ill-formed term for each check. -/

theorem test_wf_shamt : (Instr.add 3 1 2 64).wellFormed = false := by decide
theorem test_wf_imm_high : (Instr.addi 1 0 2048).wellFormed = false := by decide
theorem test_wf_imm_low : (Instr.subi 1 0 (-2049)).wellFormed = false := by decide
theorem test_wf_cb_offset_high : (Instr.cbz 0 262144).wellFormed = false := by decide
theorem test_wf_cb_offset_low : (Instr.cbnz 0 (-262145)).wellFormed = false := by decide
theorem test_wf_b_offset_high : (Instr.b 33554432).wellFormed = false := by decide
theorem test_wf_b_offset_low : (Instr.b (-33554433)).wellFormed = false := by decide
theorem test_wf_field : (Instr.movz 1 65536 0).wellFormed = false := by decide
theorem test_wf_shiftCode : (Instr.movk 1 0 4).wellFormed = false := by decide
theorem test_wf_address : (Instr.stur 1 2 512 0).wellFormed = false := by decide
theorem test_wf_op2 : (Instr.ldur 1 2 0 4).wellFormed = false := by decide
theorem test_wf_literal : (Fields.rawData 2147483648).wellFormed = false := by decide
theorem test_wf_bounds : (Instr.addi 1 0 (-2048)).wellFormed = true ∧ (Instr.b 33554431).wellFormed = true := by decide
theorem test_wf_params : ({ width := 31 } : Params).wf = false := by decide

/-! Decode: one word per instruction, its bits written out from the field tables of R63 to R69, beside the spec's own
hexadecimal of the same word (its rules and 95_test_vectors.md). -/

-- 000101 | offset 26 ones but the last 0
theorem test_decode_b :
    decode (0b000101#6 ++ 0b11111111111111111111111110#26) = .ok (.b (-2)) ∧
      decode 0x17FFFFFE = .ok (.b (-2)) := by decide
-- opcode | rm 2 | shamt 0 | rn 1 | rd 3
theorem test_decode_and :
    decode (0b10001010000#11 ++ 0b00010#5 ++ 0b000000#6 ++ 0b00001#5 ++ 0b00011#5) = .ok (.and 3 1 2 0) ∧
      decode 0x8A020023 = .ok (.and 3 1 2 0) := by decide
-- shamt 63
theorem test_decode_add :
    decode (0b10001011000#11 ++ 0b00010#5 ++ 0b111111#6 ++ 0b00001#5 ++ 0b00011#5) = .ok (.add 3 1 2 63) ∧
      decode 0x8B02FC23 = .ok (.add 3 1 2 63) := by decide
-- opcode | imm -2048 | rn 0 | rd 1
theorem test_decode_addi :
    decode (0b1001000100#10 ++ 0b100000000000#12 ++ 0b00000#5 ++ 0b00001#5) = .ok (.addi 1 0 (-2048)) ∧
      decode 0x91200001 = .ok (.addi 1 0 (-2048)) := by decide
theorem test_decode_orr :
    decode (0b10101010000#11 ++ 0b00010#5 ++ 0b000000#6 ++ 0b00001#5 ++ 0b00011#5) = .ok (.orr 3 1 2 0) ∧
      decode 0xAA020023 = .ok (.orr 3 1 2 0) := by decide
-- opcode | offset 262143 | rt 0
theorem test_decode_cbz :
    decode (0b10110100#8 ++ 0b0111111111111111111#19 ++ 0b00000#5) = .ok (.cbz 0 262143) ∧
      decode 0xB47FFFE0 = .ok (.cbz 0 262143) := by decide
-- opcode | offset -262144 | rt 0
theorem test_decode_cbnz :
    decode (0b10110101#8 ++ 0b1000000000000000000#19 ++ 0b00000#5) = .ok (.cbnz 0 (-262144)) ∧
      decode 0xB5800000 = .ok (.cbnz 0 (-262144)) := by decide
theorem test_decode_sub :
    decode (0b11001011000#11 ++ 0b00010#5 ++ 0b000000#6 ++ 0b00001#5 ++ 0b00011#5) = .ok (.sub 3 1 2 0) ∧
      decode 0xCB020023 = .ok (.sub 3 1 2 0) := by decide
theorem test_decode_subi :
    decode (0b1101000100#10 ++ 0b000000000001#12 ++ 0b00001#5 ++ 0b00001#5) = .ok (.subi 1 1 1) ∧
      decode 0xD1000421 = .ok (.subi 1 1 1) := by decide
-- opcode | shiftCode 2 | field 65535 | rd 1
theorem test_decode_movz :
    decode (0b110100101#9 ++ 0b10#2 ++ 0b1111111111111111#16 ++ 0b00001#5) = .ok (.movz 1 65535 2) ∧
      decode 0xD2DFFFE1 = .ok (.movz 1 65535 2) := by decide
theorem test_decode_movk :
    decode (0b111100101#9 ++ 0b01#2 ++ 0b0000000000000001#16 ++ 0b00000#5) = .ok (.movk 0 1 1) ∧
      decode 0xF2A00020 = .ok (.movk 0 1 1) := by decide
theorem test_decode_lsr :
    decode (0b11010011010#11 ++ 0b00000#5 ++ 0b000011#6 ++ 0b00001#5 ++ 0b00010#5) = .ok (.lsr 2 1 0 3) ∧
      decode 0xD3400C22 = .ok (.lsr 2 1 0 3) := by decide
theorem test_decode_lsl :
    decode (0b11010011011#11 ++ 0b00000#5 ++ 0b000011#6 ++ 0b00001#5 ++ 0b00010#5) = .ok (.lsl 2 1 0 3) ∧
      decode 0xD3600C22 = .ok (.lsl 2 1 0 3) := by decide
theorem test_decode_asr :
    decode (0b11010011100#11 ++ 0b00000#5 ++ 0b000001#6 ++ 0b00001#5 ++ 0b00011#5) = .ok (.asr 3 1 0 1) ∧
      decode 0xD3800423 = .ok (.asr 3 1 0 1) := by decide
theorem test_decode_eor :
    decode (0b11101010000#11 ++ 0b00010#5 ++ 0b000000#6 ++ 0b00001#5 ++ 0b00011#5) = .ok (.eor 3 1 2 0) ∧
      decode 0xEA020023 = .ok (.eor 3 1 2 0) := by decide
-- opcode | address 0 | op2 3 | rn 2 | rt 1
theorem test_decode_stur :
    decode (0b11111000000#11 ++ 0b000000000#9 ++ 0b11#2 ++ 0b00010#5 ++ 0b00001#5) = .ok (.stur 1 2 0 3) ∧
      decode 0xF8000C41 = .ok (.stur 1 2 0 3) := by decide
-- address 256: unsigned
theorem test_decode_ldur :
    decode (0b11111000010#11 ++ 0b100000000#9 ++ 0b00#2 ++ 0b00001#5 ++ 0b00011#5) = .ok (.ldur 3 1 256 0) ∧
      decode 0xF8500023 = .ok (.ldur 3 1 256 0) := by decide
theorem test_decode_brk :
    decode (0b11111110110#11 ++ 0b111111111111111111111#21) = .ok .brk ∧ decode 0xFEC00000 = .ok .brk := by decide
theorem test_decode_nop :
    decode (0b00000000000#11 ++ 0b111111111111111111111#21) = .ok .nop ∧ decode 0x00000005 = .ok .nop := by decide

/-- V10, V12, V17, V19: unclassified values beside a row. -/
theorem test_decode_rejects :
    decode 0xFFFFFFFF = .error (.invalidOpcode 2047) ∧ decode 0x00200000 = .error (.invalidOpcode 1) ∧
      decode 0x18000000 = .error (.invalidOpcode 192) ∧ decode 0xF8200000 = .error (.invalidOpcode 1985) := by decide

/-- R88: the two encodings written out. -/
theorem test_encode : encode (.addi 1 0 10) = 0x91002801 ∧ encode (.cbnz 1 (-2)) = 0xB5FFFFC1 := by decide

/-! Sign extension (V1, V4, V7). -/

theorem test_sext : sext 12 0x800 = -2048 ∧ sext 19 0x40000 = -262144 ∧ sext 26 0x3FFFFFF = -1 := by decide

/-! Single steps. -/

/-- V36. -/
theorem test_b_backward :
    afterStep (atIndex (core0 [0, 0, 0, 0, 0, 0x17FFFFFE]) 5) (fun t => (t.pc, t.cycle)) = some (3, 2) := by decide
/-- V37: the branch retires; the bounds are tested a step later. -/
theorem test_b_out :
    afterStep (core0 [0x17FFFFFF]) (fun t => (t.pc, event t)) = some (-1, some (1, 96, .B, "#-1")) := by decide
/-- R126. -/
theorem test_and :
    afterStep (setRegs (core0 [0x8A020023]) [(1, 12), (2, 10)]) (regPc 3) = some (8, 1) := by decide
/-- V46: register 31 is written like any other. -/
theorem test_and_r31 :
    afterStep (setRegs (core0 [0x8A02003F]) [(1, -1), (2, 12)]) (regPc 31) = some (12, 1) := by decide
/-- S5. -/
theorem test_add :
    afterStep (setRegs (core0 [0x8B020023]) [(1, 10), (2, 5)]) (regPc 3) = some (15, 1) := by decide
/-- V40: the sum wraps at `W = 32`. -/
theorem test_add_wraps :
    afterStep (setRegs (booted { width := 32 } [0x8B020023]) [(1, 2147483647), (2, 1)]) (regPc 3) =
      some (-2147483648, 1) := by decide
/-- R128. -/
theorem test_orr :
    afterStep (setRegs (core0 [0xAA020023]) [(1, 12), (2, 10)]) (regPc 3) = some (14, 1) := by decide
/-- S11: second operand minus first. -/
theorem test_sub :
    afterStep (setRegs (core0 [0xCB020023]) [(1, 10), (2, 3)]) (regPc 3) = some (-7, 1) := by decide
/-- V44. -/
theorem test_sub_same :
    afterStep (setRegs (core0 [0xCB010021]) [(1, 9)]) (regPc 1) = some (0, 1) := by decide
/-- R130. -/
theorem test_eor :
    afterStep (setRegs (core0 [0xEA020023]) [(1, 12), (2, 10)]) (regPc 3) = some (6, 1) := by decide
/-- V50. -/
theorem test_lsr :
    afterStep (setRegs (core0 [0xD340FC22]) [(1, 8), (2, 4)]) (fun t => (regPc 2 t, event t)) =
      some ((4, 1), some (1, 96, .LSR, "R2, R1, #63")) := by decide
/-- V51. -/
theorem test_lsl_refused :
    afterStep (booted refuseParams [0xD3600C22]) (fun t => (t.status, t.pc, t.cycle, t.trace)) =
      some (.refused .LSL, 0, 1, []) := by decide
/-- R133. -/
theorem test_asr :
    afterStep (setRegs (core0 [0xD3800423]) [(1, 8), (3, 7)]) (regPc 3) = some (7, 1) := by decide
/-- V55. -/
theorem test_addi : afterStep (core0 [0x913FFC02]) (regPc 2) = some (-1, 1) := by decide
/-- V54: the sum wraps. -/
theorem test_addi_wraps :
    afterStep (setRegs (core0 [0x91000421]) [(1, 2 ^ 63 - 1)]) (regPc 1) = some (-2 ^ 63, 1) := by decide
/-- V56: minus a negative immediate. -/
theorem test_subi : afterStep (core0 [0xD1200001]) (regPc 1) = some (2048, 1) := by decide
/-- V59. -/
theorem test_cbz_taken : afterStep (core0 [0xB4000060]) (fun t => t.pc) = some 3 := by decide
/-- V62: register 31 is tested like any other. -/
theorem test_cbz_r31 :
    afterStep (setRegs (atIndex (core0 [0, 0, 0, 0, 0xB400005F]) 4) [(31, 5)]) (fun t => t.pc) = some 5 := by decide
/-- V63: a negative value is not zero. -/
theorem test_cbnz_negative :
    afterStep (setRegs (atIndex (core0 [0, 0, 0xB50000A1]) 2) [(1, -1)]) (fun t => t.pc) = some 7 := by decide
/-- V64. -/
theorem test_cbnz_zero : afterStep (atIndex (core0 [0, 0, 0, 0xB5FFFFC1]) 3) (fun t => t.pc) = some 4 := by decide
/-- V67. -/
theorem test_movz :
    afterStep (setRegs (core0 [0xD28000A1]) [(1, 9)]) (fun t => (regPc 1 t, event t)) =
      some ((9, 1), some (1, 96, .MOVZ, "R1, 5, LSL 0")) := by decide
/-- R152. -/
theorem test_movk : afterStep (setRegs (core0 [0xF2FFFFE1]) [(1, 9)]) (regPc 1) = some (9, 1) := by decide
/-- V70. -/
theorem test_movk_refused :
    afterStep (booted refuseParams [0xF2FFFFE1]) (fun t => (t.status, t.trace)) = some (.refused .MOVK, []) := by decide
/-- V71: offset 511 adds 2044. -/
theorem test_stur :
    afterStep (setRegs (core0 [0xF81FF041]) [(1, 7), (2, 1000)]) memorySnapshot =
      some (some [(3044, #v[7, 0, 0, 0, 0, 0, 0, 0])]) := by decide
/-- V73: a stored 0 makes a bank. -/
theorem test_stur_zero :
    afterStep (core0 [0xF8005000]) memorySnapshot = some (some [(20, #v[0, 0, 0, 0, 0, 0, 0, 0])]) := by decide
/-- V75: the address uses the old base. -/
theorem test_ldur :
    afterStep (setSlot (setRegs (core0 [0xF8400042]) [(2, 100)]) 100 55) (regPc 2) = some (55, 1) := by decide
/-- V74: an absent key loads 0 and makes no bank. -/
theorem test_ldur_absent :
    afterStep (setRegs (core0 [0xF8401004]) [(4, 3)]) (fun t => (regPc 4 t, memorySnapshot t)) =
      some ((0, 1), none) := by decide
/-- V80: BREAK retires. -/
theorem test_brk :
    afterStep (core0 [0xFEDFFFFF]) (fun t => (t.halted, event t)) = some (true, some (1, 96, .BREAK, "")) := by decide
/-- V79. -/
theorem test_nop :
    afterStep (core0 [0x001FFFFF]) (fun t => (t.pc, event t)) = some (1, some (1, 96, .NOP, "")) := by decide
/-- P7: an unclassified word is reported by the decoder and skipped by the engine. -/
theorem test_skip :
    afterStep (core0 [0xFFFFFFFF]) (fun t => (t.pc, t.cycle, t.trace, t.diag)) =
      some (1, 1, [], [⟨.invalidOpcode, 0⟩, ⟨.skippedRecord, 0⟩]) := by decide
/-- P5: data after a BREAK runs as NOP at its own address. -/
theorem test_data_as_nop :
    afterStep (atIndex (core0 [0xFEC00000, 0x91001C01]) 1) (fun t => (regPc 1 t, event t)) =
      some ((0, 2), some (1, 100, .NOP, "")) := by decide
/-- V84: data under `DATA_EXEC = fault`. -/
theorem test_data_fault :
    afterStep (atIndex (booted faultParams [0xFEC00000, 0x91001C01]) 1) (fun t => (t.status, t.pc, t.trace)) =
      some (.faulted .dataExecuted, 1, []) := by decide
/-- V82: the empty image. -/
theorem test_empty_image : afterStep (core0 []) (fun t => (t.status, t.pc, t.cycle)) = some (.outOfBounds, 0, 1) := by decide

/-- The host's word runs as the first instruction after reset. -/
theorem test_fetch_word :
    afterStep (State.reset.withFetchWord 32 0x91002801) (regPc 1) = some (10, 1) := by decide

/-! The decoder and the texts. -/

/-- P8: the entries of its five lines. -/
def entriesP8 : List Entry :=
  [.word "10010001000000000000010000000001" 0x91000401, .malformed "1001000100000000000001000000000",
    .word "11111110110000000000000000000000" 0xFEC00000, .malformed "00000000000000000000000000000012",
    .word "00000000000000000000000000000111" 7]

theorem test_p8_word : (wordOfLine "10010001000000000000010000000001" == some 0x91000401) = true := by decide
theorem test_p8_short : wordOfLine "1001000100000000000001000000000" = none := by decide
theorem test_p8_digit : wordOfLine "00000000000000000000000000000012" = none := by decide
/-- R7: white space around a line is stripped. -/
theorem test_stripped : strip " \t01 1\r".toList = "01 1".toList := by decide
/-- D23: an empty line is a malformed entry, and a final line break starts no line. -/
theorem test_lines : imageOfText "0\n\n1\n" = [.malformed "0", .malformed "", .malformed "1"] := by decide
theorem test_p8_records :
    (decodeFrom false 0 entriesP8).map (fun r => (r.address, r.format, r.fields)) =
      [(96, some .I, .i 1 0 1), (100, none, .none), (104, some .BREAK, .none), (108, some .rawData, .none),
        (112, some .rawData, .rawData 7)] := by decide
theorem test_p8_diag : diagsFrom false 0 entriesP8 = [⟨.malformedWord, 1⟩, ⟨.malformedWord, 3⟩] := by decide
/-- V34, V81. -/
theorem test_data_literals :
    (decodeFrom false 0 [.word "" 0xFEC00000, .word "" 0x8B020023, .word "" 0xFEC00000]).map
        (fun r => (r.opcodeField, r.fields)) =
      [(some 2038, .none), (some 0, .rawData (-1962803165)), (some 0, .rawData (-20971520))] := by decide
/-- P3 with `PRELOAD_DATA = true`. -/
theorem test_preload :
    memorySnapshot (booted preloadParams [0, 0xFEC00000, 0x00000005, 0xFFFFFFFF]) =
      some [(104, #v[5, 0, 0, 0, 0, 0, 0, 0]), (108, #v[-1, 0, 0, 0, 0, 0, 0, 0])] := by decide
/-- R92: the groups of an I-format word, and a RAW-DATA line. -/
theorem test_disassembly :
    disassembly (decodeFrom false 0 [Entry.ofWord 0x91002801, Entry.ofWord 0xFEC00000, Entry.ofWord 5]) =
      ["1001000100 000000001010 00000 00001\t96\tADDI\tR1, R0, #10",
        "11111110110000000000000000000000\t100\tBREAK", "00000000000000000000000000000101\t104\t5"] := by decide
/-- R113, D17. -/
theorem test_trace_text :
    traceLines ⟨5, 112, .STUR, "R3, [R0, #2]", Vector.replicate 32 0, some [(8, #v[15, 0, 0, 0, 0, 0, 0, 0])]⟩ =
      ["Cycle:5\t112\tSTUR\tR3, [R0, #2]", "registers:", "r0:\t0\t0\t0\t0\t0\t0\t0\t0", "r8:\t0\t0\t0\t0\t0\t0\t0\t0",
        "r16:\t0\t0\t0\t0\t0\t0\t0\t0", "r24:\t0\t0\t0\t0\t0\t0\t0\t0", "data:", "8:\t15\t0\t0\t0\t0\t0\t0\t0",
        "============"] := by decide

/-! Witnesses: for every obligation with hypotheses, values that meet them, one clause after another, at the ends of the
ranges. -/

/-- The state an outcome holds, where it is a next state. -/
def nextOr (s : State) (o : Host.Outcome State Fault Refusal) : State :=
  match o with
  | .next t => t
  | .fault _ => s
  | .refused _ => s

theorem active_core0 (words : List InstrWord) : Active (core0 words) := ⟨rfl, rfl, rfl⟩

theorem witness_ExtensionReadsTwosComplement : 0 < 1 ∧ sext 1 1 = -1 ∧ 0 < 32 ∧ sext 32 0x80000000 = -2147483648 := by
  decide
theorem witness_SignExtensionRoundTrips : 12 ∈ [12, 19, 26, 32] ∧ 32 ∈ [12, 19, 26, 32] := by decide
theorem witness_ClassifierRowsAreDisjoint : 2047 < 2048 ∧ 0 < 2048 := by decide
theorem witness_UnclassifiedValuesAreTheListed :
    decode 0x00200000 = .error (.invalidOpcode (opcodeOf 0x00200000)) ∧
      decode 0xFFFFFFFF = .error (.invalidOpcode (opcodeOf 0xFFFFFFFF)) := by decide
theorem witness_DecodeOfEncodeIsTheInstruction :
    (Instr.cbz 31 (-262144)).wellFormed = true ∧ (Instr.stur 31 0 511 3).wellFormed = true ∧
      (Instr.add 31 31 31 63).wellFormed = true := by decide
theorem witness_EncodeOfDecodeIsTheWord :
    decode 0xFEDFFFFF = .ok .brk ∧ decode 0x001FFFFF = .ok .nop ∧ decode 0xF81FF041 = .ok (.stur 1 2 511 0) := by decide
theorem witness_LineOfWordIsReadMostSignificantFirst :
    31 < 32 ∧ " \t".toList.all isBlank = true ∧ "\r".toList.all isBlank = true := by decide
theorem witness_OtherLinesAreMalformed :
    Entry.ofLine "00000000000000000000000000000101" ≠ .malformed "00000000000000000000000000000101" ∧
      Entry.ofLine "" = .malformed "" := by decide
theorem witness_EntryBecomesItsRecord :
    decode 0x91002801 = .ok (.addi 1 0 10) ∧ decode 0xFFFFFFFF = .error (.invalidOpcode 2047) := by decide
theorem witness_EngineResetLeavesTheStatedValues : Config.defaultParams.preloadData = false := by decide
theorem witness_RecordAddressesCountFromNinetySix :
    (decodeFrom false 0 entriesP8)[0]? = some (buildRecord false 0 (.word "10010001000000000000010000000001" 0x91000401)) ∧
      (decodeFrom false 0 entriesP8)[3]? = some (buildRecord true 3 (.malformed "00000000000000000000000000000012")) := by
  decide
theorem witness_RecordsAfterBreakAreRawData :
    (decodeFrom false 0 entriesP8)[2]? = some (buildRecord false 2 (.word "11111110110000000000000000000000" 0xFEC00000)) ∧
      (decodeFrom false 0 entriesP8)[4]? = some (buildRecord true 4 (.word "00000000000000000000000000000111" 7)) ∧
      (buildRecord true 4 (.word "00000000000000000000000000000111" 7)).format = some .rawData ∧
      entriesP8[4]? = some (.word "00000000000000000000000000000111" 7) := by decide
theorem witness_PreloadPlacesTheLiterals :
    preloadParams.wf = true ∧ preloadParams.preloadData = true ∧ Config.defaultParams.wf = true ∧
      Config.defaultParams.preloadData = false ∧ 96 + 4 * entriesP8.length ≤ 2 ^ 31 ∧
      (-(2 ^ (preloadParams.width - 1)) : Int) ≤ 112 ∧ (112 : Int) < 2 ^ (preloadParams.width - 1) ∧
      (boot preloadParams entriesP8).slots 112 = some #v[7, 0, 0, 0, 0, 0, 0, 0] := by decide
/-- The two ends of the range of keys, where no bank is. -/
theorem witness_PreloadPlacesTheLiterals_ends :
    (boot preloadParams entriesP8).slots (-(2 ^ (preloadParams.width - 1))) = none ∧
      (boot preloadParams entriesP8).slots (2 ^ (preloadParams.width - 1) - 1) = none := by decide

/-! The engine's cycle. -/

theorem witness_StepRunsTheDecodedInstruction :
    Active (core0 [0x91002801]) ∧ 0 ≤ (core0 [0x91002801]).pc ∧
      (core0 [0x91002801]).image[(core0 [0x91002801]).pc.toNat]? = some (buildRecord false 0 (.word "" 0x91002801)) ∧
      decode 0x91002801 = .ok (.addi 1 0 10) := ⟨active_core0 _, by decide, by decide, by decide⟩
theorem witness_EngineClassAgreesWithTheDecoder :
    decode 0x8B020023 = .ok (.add 3 1 2 0) ∧ decode 0x18000000 = .error (.invalidOpcode 192) := by decide
theorem witness_UnclassifiedRecordIsSkipped :
    Active (core0 [0xFFFFFFFF]) ∧ 0 ≤ (core0 [0xFFFFFFFF]).pc ∧
      (core0 [0xFFFFFFFF]).image[(core0 [0xFFFFFFFF]).pc.toNat]? = some (buildRecord false 0 (.word "" 0xFFFFFFFF)) ∧
      engineClass (buildRecord false 0 (.word "" 0xFFFFFFFF)) = none := ⟨active_core0 _, by decide, by decide, by decide⟩

/-- A core at the data record after a BREAK. -/
def atData (p : Params) : State := atIndex (booted p [0xFEC00000, 5]) 1

theorem witness_RawDataRunsAsNopOrStops_asNop :
    Active (atData Config.defaultParams) ∧ 0 ≤ (atData Config.defaultParams).pc ∧
      (atData Config.defaultParams).image[(atData Config.defaultParams).pc.toNat]? =
        some (buildRecord true 1 (.word "" 5)) ∧
      (atData Config.defaultParams).params.dataExec = .asNop := ⟨⟨rfl, rfl, rfl⟩, by decide, by decide, rfl⟩
theorem witness_RawDataRunsAsNopOrStops_fault :
    Active (atData faultParams) ∧ 0 ≤ (atData faultParams).pc ∧
      (atData faultParams).image[(atData faultParams).pc.toNat]? = some (buildRecord true 1 (.word "" 5)) ∧
      (atData faultParams).params.dataExec = .fault := ⟨⟨rfl, rfl, rfl⟩, by decide, by decide, rfl⟩
theorem witness_RawDataRunsAsNopOrStops_malformed :
    Active (atIndex (boot faultParams entriesP8) 3) ∧ 0 ≤ (atIndex (boot faultParams entriesP8) 3).pc ∧
      (atIndex (boot faultParams entriesP8) 3).image[(atIndex (boot faultParams entriesP8) 3).pc.toNat]? =
        some (buildRecord true 3 (.malformed "00000000000000000000000000000012")) :=
  ⟨⟨rfl, rfl, rfl⟩, by decide, by decide⟩
theorem witness_PolicyStopsChangeOnlyTheStatus_data :
    Active (atData faultParams) ∧ 0 ≤ (atData faultParams).pc ∧
      (atData faultParams).image[(atData faultParams).pc.toNat]? = some (buildRecord true 1 (.word "" 5)) ∧
      engineInstr (buildRecord true 1 (.word "" 5)) = some .nop ∧
      (buildRecord true 1 (.word "" 5)).format = some .rawData ∧ (atData faultParams).params.dataExec = .fault :=
  ⟨⟨rfl, rfl, rfl⟩, by decide, by decide, by decide, by decide, rfl⟩
theorem witness_PolicyStopsChangeOnlyTheStatus_refuse :
    Active (booted refuseParams [0xF2FFFFE1]) ∧ 0 ≤ (booted refuseParams [0xF2FFFFE1]).pc ∧
      (booted refuseParams [0xF2FFFFE1]).image[(booted refuseParams [0xF2FFFFE1]).pc.toNat]? =
        some (buildRecord false 0 (.word "" 0xF2FFFFE1)) ∧
      engineInstr (buildRecord false 0 (.word "" 0xF2FFFFE1)) = some (.movk 1 65535 3) ∧
      (buildRecord false 0 (.word "" 0xF2FFFFE1)).format ≠ some .rawData ∧
      (booted refuseParams [0xF2FFFFE1]).params.incompleteOps = .refuse ∧
      (Instr.movk 1 65535 3).mnemonic ∈ [Mnemonic.LSR, .LSL, .ASR, .MOVZ, .MOVK] :=
  ⟨⟨rfl, rfl, rfl⟩, by decide, by decide, by decide, by decide, rfl, by decide⟩
theorem witness_PolicyStopsChangeOnlyTheStatus_default :
    Active (core0 [0xD3400C22]) ∧ 0 ≤ (core0 [0xD3400C22]).pc ∧
      (core0 [0xD3400C22]).image[(core0 [0xD3400C22]).pc.toNat]? = some (buildRecord false 0 (.word "" 0xD3400C22)) ∧
      engineInstr (buildRecord false 0 (.word "" 0xD3400C22)) = some (.lsr 2 1 0 3) ∧
      (core0 [0xD3400C22]).params.dataExec = .asNop ∧ (core0 [0xD3400C22]).params.incompleteOps = .tracedOnly :=
  ⟨active_core0 _, by decide, by decide, by decide, rfl, rfl⟩
theorem witness_LoopTestsDecideTheTerminalStatus_halted :
    (core0 [0]).halt.phase = .engine ∧ (core0 [0]).halt.status = .running ∧ (core0 [0]).halt.halted = true := by decide
theorem witness_LoopTestsDecideTheTerminalStatus_bounds :
    Active (atIndex (core0 [0]) (-1)) ∧ (atIndex (core0 [0]) (-1)).pc < 0 ∧ Active (atIndex (core0 [0]) 1) ∧
      ((atIndex (core0 [0]) 1).image.length : Int) ≤ (atIndex (core0 [0]) 1).pc :=
  ⟨⟨rfl, rfl, rfl⟩, by decide, ⟨rfl, rfl, rfl⟩, by decide⟩
theorem witness_LoopTestsDecideTheTerminalStatus_inside :
    Active (core0 [0]) ∧ 0 ≤ (core0 [0]).pc ∧ (core0 [0]).pc < (core0 [0]).image.length :=
  ⟨active_core0 _, by decide, by decide⟩
theorem witness_BreakEndsTheRunOneStepLater :
    Active (core0 [0xFEDFFFFF]) ∧ 0 ≤ (core0 [0xFEDFFFFF]).pc ∧
      (core0 [0xFEDFFFFF]).image[(core0 [0xFEDFFFFF]).pc.toNat]? = some (buildRecord false 0 (.word "" 0xFEDFFFFF)) ∧
      (opcodeOf 0xFEDFFFFF).toNat = 2038 := ⟨active_core0 _, by decide, by decide, by decide⟩
theorem witness_FinalStateStays :
    ((core0 []).stop .outOfBounds).phase = .engine ∧ Ended ((core0 []).stop .outOfBounds) :=
  ⟨rfl, by unfold Ended; decide⟩
theorem witness_BranchToItselfNeverEnds :
    Active (core0 [0x14000000]) ∧ 0 ≤ (core0 [0x14000000]).pc ∧
      (core0 [0x14000000]).image[(core0 [0x14000000]).pc.toNat]? = some (buildRecord false 0 (.word "" 0x14000000)) :=
  ⟨active_core0 _, by decide, by decide⟩

/-! The instructions: the words of each encoding clause, and the states of the clauses with a premise. -/

theorem witness_BranchGoesToItsOffset :
    0x15FFFFFF#32 &&& 0xFC000000#32 = 0x14000000#32 ∧ 0x16000000#32 &&& 0xFC000000#32 = 0x14000000#32 := by decide
theorem witness_BranchGoesToItsOffset_outOfBounds :
    Active (core0 [0x17FFFFFF]) ∧ (nextOr (core0 []) (exec (.b (-1)) (core0 [0x17FFFFFF]))).pc < 0 ∧
      ((core0 [0x17FFFFFF]).image.length : Int) ≤ (nextOr (core0 []) (exec (.b 1) (core0 [0x17FFFFFF]))).pc :=
  ⟨active_core0 _, by decide, by decide⟩
theorem witness_AndWritesTheBitwiseAnd : 0x8A1FFFFF#32 &&& 0xFFE00000#32 = 0x8A000000#32 := by decide
theorem witness_AddWritesTheSum : 0x8B1FFFFF#32 &&& 0xFFE00000#32 = 0x8B000000#32 := by decide
theorem witness_OrrWritesTheBitwiseOr : 0xAA1FFFFF#32 &&& 0xFFE00000#32 = 0xAA000000#32 := by decide
theorem witness_SubWritesSecondMinusFirst : 0xCB1FFFFF#32 &&& 0xFFE00000#32 = 0xCB000000#32 := by decide
theorem witness_EorWritesTheBitwiseExclusiveOr : 0xEA1FFFFF#32 &&& 0xFFE00000#32 = 0xEA000000#32 := by decide
theorem witness_ShiftsAreTracedOnlyOrRefused :
    0xD35FFFFF#32 &&& 0xFFE00000#32 = 0xD3400000#32 ∧ 0xD37FFFFF#32 &&& 0xFFE00000#32 = 0xD3600000#32 ∧
      0xD39FFFFF#32 &&& 0xFFE00000#32 = 0xD3800000#32 ∧
      Instr.asr 3 1 0 63 ∈ [Instr.lsr 3 1 0 63, .lsl 3 1 0 63, .asr 3 1 0 63] ∧
      (core0 []).params.incompleteOps = .tracedOnly ∧ (booted refuseParams []).params.incompleteOps = .refuse := by decide
theorem witness_AddiWritesTheSumWithTheImmediate :
    0x913FFFFF#32 &&& 0xFFC00000#32 = 0x91000000#32 ∧ 0x911FFC01#32 &&& 0xFFC00000#32 = 0x91000000#32 := by decide
theorem witness_SubiWritesTheDifferenceWithTheImmediate :
    0xD13FFFFF#32 &&& 0xFFC00000#32 = 0xD1000000#32 ∧ 0xD11FFC01#32 &&& 0xFFC00000#32 = 0xD1000000#32 := by decide
theorem witness_CbzBranchesOnZero :
    0xB4FFFFFF#32 &&& 0xFF000000#32 = 0xB4000000#32 ∧ (core0 [0xB4FFFFE0]).regVal 0 = 0 ∧
      (setRegs (core0 [0xB4FFFFE0]) [(0, -1)]).regVal 0 ≠ 0 := by decide
theorem witness_CbzBranchesOnZero_outOfBounds :
    Active (core0 [0xB4FFFFE0]) ∧ (nextOr (core0 []) (exec (.cbz 0 (-1)) (core0 [0xB4FFFFE0]))).pc < 0 :=
  ⟨active_core0 _, by decide⟩
theorem witness_CbnzBranchesOnNonZero :
    0xB5FFFFFF#32 &&& 0xFF000000#32 = 0xB5000000#32 ∧ (setRegs (core0 [0xB5FFFFC1]) [(1, -1)]).regVal 1 ≠ 0 := by decide
theorem witness_CbnzBranchesOnNonZero_outOfBounds :
    Active (core0 [0xB5FFFFC1]) ∧
      ((core0 [0xB5FFFFC1]).image.length : Int) ≤ (nextOr (core0 []) (exec (.cbnz 1 (-2)) (core0 [0xB5FFFFC1]))).pc :=
  ⟨active_core0 _, by decide⟩
theorem witness_WideMovesAreTracedOnlyOrRefused :
    0xD2FFFFFF#32 &&& 0xFF800000#32 = 0xD2800000#32 ∧ 0xF2FFFFFF#32 &&& 0xFF800000#32 = 0xF2800000#32 ∧
      Instr.movk 1 65535 3 ∈ [Instr.movz 1 65535 3, .movk 1 65535 3] ∧
      (core0 []).params.incompleteOps = .tracedOnly ∧ (booted refuseParams []).params.incompleteOps = .refuse := by decide
theorem witness_SturStoresTheRegister :
    0xF81FFFFF#32 &&& 0xFFE00000#32 = 0xF8000000#32 ∧
      BitVec.ofInt (core0 []).width 1 ≠ BitVec.ofInt (core0 []).width ((core0 []).eaVal 0 0) := by decide
theorem witness_LdurLoadsSlotZero : 0xF85FFFFF#32 &&& 0xFFE00000#32 = 0xF8400000#32 := by decide
theorem witness_NopOnlyRetires : 0x001FFFFF#32 &&& 0xFFE00000#32 = 0x00000000#32 := by decide
theorem witness_BreakSetsHaltedAndRetires :
    0xFEDFFFFF#32 &&& 0xFFE00000#32 = 0xFEC00000#32 ∧ (core0 [0xFEC00000]).phase = .engine ∧
      (core0 [0xFEC00000]).status = .running := by decide

/-! Rules about the whole machine. -/

theorem witness_LoadReturnsTheStoredValue :
    (∃ t, exec (.stur 5 0 0 0) (setRegs (core0 []) [(0, 100), (5, 42)]) = .next t) ∧
      BitVec.ofInt (core0 []).width 101 ≠ BitVec.ofInt (core0 []).width 100 := ⟨⟨_, rfl⟩, by decide⟩
theorem witness_MemorySnapshotListsTheBanks :
    Memory.wf (setSlot (core0 []) 3 (-1)).mem ∧
      memorySnapshot (setSlot (core0 []) 3 (-1)) = some [(3, #v[-1, 0, 0, 0, 0, 0, 0, 0])] ∧
      (setSlot (core0 []) 3 (-1)).slots 3 = some #v[-1, 0, 0, 0, 0, 0, 0, 0] := by decide
theorem witness_OnlyDestinationsAreWritten :
    ∃ t, (core0 [0x9100281F]).phase = .engine ∧ step (core0 [0x9100281F]) = .next t ∧
      t.regVal 31 ≠ (core0 [0x9100281F]).regVal 31 := ⟨_, rfl, rfl, by decide⟩
theorem witness_OnlySturChangesMemory :
    ∃ t, (core0 [0xF8005000]).phase = .engine ∧ step (core0 [0xF8005000]) = .next t ∧
      t.slots 20 ≠ (core0 [0xF8005000]).slots 20 := ⟨_, rfl, rfl, by decide⟩
theorem witness_OnlySturChangesMemory_kept :
    ∃ t, (setSlot (core0 [0]) (-4) 7).phase = .engine ∧ step (setSlot (core0 [0]) (-4) 7) = .next t ∧
      ((setSlot (core0 [0]) (-4) 7).slots (-4)).isSome = true := ⟨_, rfl, rfl, by decide⟩
theorem witness_ImageIsReadOnlyToTheEngine :
    ∃ t, (core0 [0xF8005000]).phase = .engine ∧ step (core0 [0xF8005000]) = .next t := ⟨_, rfl, rfl⟩
theorem witness_EngineOutputsOnlyGrow :
    ∃ t, (core0 [0xFFFFFFFF]).phase = .engine ∧ step (core0 [0xFFFFFFFF]) = .next t := ⟨_, rfl, rfl⟩
theorem witness_HaltedIsSetByBreakAndStays_set :
    ∃ t, (core0 [0xFEC00000]).phase = .engine ∧ step (core0 [0xFEC00000]) = .next t ∧
      (core0 [0xFEC00000]).halted = false ∧ t.halted = true := ⟨_, rfl, rfl, rfl, rfl⟩
theorem witness_HaltedIsSetByBreakAndStays_stays :
    ∃ t, (core0 [0]).halt.phase = .engine ∧ step (core0 [0]).halt = .next t ∧ (core0 [0]).halt.halted = true :=
  ⟨_, rfl, rfl, rfl⟩
theorem witness_InvariantHoldsAtLaunch : ({ width := 32 } : Params).wf = true := by decide
/-- A stored slot, a register, and the first instruction still to run. -/
theorem witness_StepKeepsTheInvariant :
    (setSlot (setRegs (core0 [0x8B020023, 0xFEC00000, 5]) [(1, 10)]) 3 (-1)).Inv ∧
      ∃ t, step (setSlot (setRegs (core0 [0x8B020023, 0xFEC00000, 5]) [(1, 10)]) 3 (-1)) = .next t :=
  ⟨⟨by decide, by decide, by decide, by decide, by decide, by decide, by decide, by decide, by decide⟩, _, rfl⟩

end Sys2Proof.Tests
end

/-! PROOFS, the scope family (00_scope.md): bit slices as two's complement, what a line is read as, and the states of reset and
launch. -/

/-! Extension (R11). -/

namespace Sys2Proof

/-- Bit `n-1` weighs `-2^n` more in the signed reading than in the unsigned one (R11). -/
theorem sext_eq_low_sub_sign {n : Nat} (v : Nat) (hn : 0 < n) :
    sext n v = ((v % 2 ^ n : Nat) : Int) - 2 ^ n * (if v.testBit (n - 1) then 1 else 0) := by
  have hmsb : (BitVec.ofNat n v).msb = v.testBit (n - 1) := by
    rw [BitVec.msb_eq_getLsbD_last, BitVec.getLsbD_ofNat, decide_eq_true (by omega : n - 1 < n), Bool.true_and]
  rw [sext, BitVec.toInt_eq_msb_cond, hmsb, BitVec.toNat_ofNat]
  cases v.testBit (n - 1) <;> simp

/-- The least signed value of `n` bits bounds `sext n` (R11). -/
theorem neg_two_pow_le_sext (n v : Nat) : -(2 ^ (n - 1)) ≤ sext n v := BitVec.le_toInt _

/-- The greatest signed value of `n` bits bounds `sext n` (R11). -/
theorem sext_le_two_pow_sub_one (n v : Nat) : sext n v ≤ 2 ^ (n - 1) - 1 := by
  have hlt : sext n v < 2 ^ (n - 1) := BitVec.toInt_lt
  omega

theorem zext_eq_mod (n v : Nat) : zext n v = v % 2 ^ n := BitVec.toNat_ofNat v n

end Sys2Proof

/-! Reading a line (R7, R172). -/

namespace Sys2Proof.Machine

@[simp] theorem readBits_nil : readBits [] = some 0 := rfl

/-- One character more, at the end, is one bit more, the least significant (R42). -/
theorem readBits_concat (cs : List Char) (c : Char) :
    readBits (cs ++ [c]) =
      (readBits cs).bind (fun n => if c = '0' then some (2 * n) else if c = '1' then some (2 * n + 1) else none) := by
  simp only [readBits, List.foldl_append, List.foldl_cons, List.foldl_nil]

/-- Characters read as a number exactly when each of them is a bit. -/
theorem readBits_isSome_iff (cs : List Char) : (readBits cs).isSome ↔ ∀ c ∈ cs, c = '0' ∨ c = '1' := by
  induction cs using List.reverseRecOn with
  | nil => simp
  | append_singleton cs c ih =>
    have hlast : (readBits (cs ++ [c])).isSome ↔ (readBits cs).isSome ∧ (c = '0' ∨ c = '1') := by
      rw [readBits_concat]
      cases readBits cs with
      | none => simp
      | some n =>
        rw [Option.bind_some]
        split_ifs <;> simp [*]
    rw [hlast, ih]
    simp only [List.mem_append, List.mem_singleton, or_imp, forall_and, forall_eq]

/-- A line gives a word exactly when, stripped, it is 32 characters of `0` and `1` (R7). -/
theorem wordOfLine_isSome_iff (line : String) :
    (wordOfLine line).isSome ↔
      (strip line.toList).length = 32 ∧ ∀ c ∈ strip line.toList, c = '0' ∨ c = '1' := by
  rw [← readBits_isSome_iff, wordOfLine]
  by_cases hlen : (strip line.toList).length = 32 <;> simp [hlen]

/-- A line's entry is malformed exactly when the line gives no word (R172). -/
theorem ofLine_eq_malformed_iff (line : String) : Entry.ofLine line = .malformed line ↔ wordOfLine line = none := by
  rw [Entry.ofLine]
  cases wordOfLine line <;> simp

/-- A line that gives a word keeps its text beside the word (R80). -/
theorem ofLine_of_wordOfLine {line : String} {w : InstrWord} (h : wordOfLine line = some w) :
    Entry.ofLine line = .word line w := by
  rw [Entry.ofLine, h]

/-! Reset and launch (R190, R191). -/

/-- A register file of zeros reads as 0 in every register. -/
theorem regVal_of_x_zero {s : State} (hx : s.x = Vector.replicate 32 0) (r : RegIdx) : s.regVal r = 0 := by
  simp [State.regVal, State.reg, hx]

/-- Where memory lists nothing, no key has a bank (R31). -/
theorem slots_of_mem_nil {s : State} (hm : s.mem = []) (key : Int) : s.slots key = none := by
  simp [State.slots, hm]

/-- A launched core has decoded no entry and retired nothing, so only the width is left to ask for. -/
theorem launch_inv {p : Params} (entries : List Entry) (hp : p.wf = true) : (launch p entries).Inv where
  width_ok := hp
  mem_wf := List.Pairwise.nil
  upper_slots_zero := upperZero_nil
  image_decoded := rfl
  haltSeen_iff := rfl
  decoder_within := Nat.zero_le _
  decoder_done := nofun
  cycle_counts := rfl
  decoding_idle _ := ⟨rfl, rfl, rfl⟩

end Sys2Proof.Machine

/-! The statements. -/

namespace Sys2Proof.Proofs

open Sys2Proof Sys2Proof.Machine

/-- Settles O1: the four readings of `sext` and `zext` are lemmas of their own, and widening is reduction into the signed range. -/
theorem extensionReadsTwosComplement : Obligations.ExtensionReadsTwosComplement := by
  intro n v hn
  exact ⟨sext_eq_low_sub_sign v hn, neg_two_pow_le_sext n v, sext_le_two_pow_sub_one n v, zext_eq_mod n v,
    fun _ => BitVec.toInt_ofInt _⟩

/-- Settles O12, by whether the line gives a word. -/
theorem otherLinesAreMalformed : Obligations.OtherLinesAreMalformed := by
  intro line
  constructor
  · rw [ofLine_eq_malformed_iff, ← wordOfLine_isSome_iff, Option.not_isSome_iff_eq_none]
  · intro hne
    rw [Ne, ofLine_eq_malformed_iff, Option.eq_none_iff_forall_ne_some] at hne
    obtain ⟨w, hw⟩ := not_forall_not.mp hne
    exact ⟨w, ofLine_of_wordOfLine hw⟩

/-- Settles O16: registers and banks by the readings of a zero register file and of an empty memory. -/
theorem resetStateHoldsTheStatedValues : Obligations.ResetStateHoldsTheStatedValues :=
  ⟨regVal_of_x_zero rfl, slots_of_mem_nil rfl, rfl, rfl, rfl, rfl, rfl, rfl, rfl, rfl, rfl⟩

/-- Settles O55: reset is itself a launch, with the default width of 64. -/
theorem invariantHoldsAtLaunch : Obligations.InvariantHoldsAtLaunch := by
  constructor
  · rw [reset_eq_launch]
    exact launch_inv [] rfl
  · exact fun _ entries hp => launch_inv entries hp

end Sys2Proof.Proofs

/-! PROOFS, the state family (10_state.md): which instruction an effect belongs to, what an engine step leaves alone, and the
invariant of the core. -/

/-! The decode pass, one entry further (R81). -/

namespace Sys2Proof.Machine

/-- The decode pass of one entry more ends in that entry's record, built under the `haltSeen` of the records before it (R81). -/
theorem decodeFrom_concat (haltSeen : Bool) (i : Nat) (es : List Entry) (e : Entry) :
    decodeFrom haltSeen i (es ++ [e]) =
      decodeFrom haltSeen i es ++
        [buildRecord (haltSeen || (decodeFrom haltSeen i es).any (fun record => record.format == some .BREAK))
          (i + es.length) e] := by
  induction es generalizing haltSeen i with
  | nil => simp [decodeFrom]
  | cons d es ih => simp [decodeFrom, ih, haltSeenAfter, Bool.or_assoc, Nat.add_assoc, Nat.add_comm 1]

/-- Decoding an entry keeps the invariant: its record is the next of the decode pass, and `haltSeen` follows it. -/
theorem decodeEntry_inv {s : State} {e : Entry} (hs : s.Inv) (phase : s.phase = .decoding)
    (entry : s.entries[s.nextEntry]? = some e) : (decodeEntry s e).Inv where
  width_ok := hs.width_ok
  mem_wf := hs.mem_wf
  upper_slots_zero := hs.upper_slots_zero
  image_decoded := by
    rw [decodeEntry_image, decodeEntry_entries, decodeEntry_nextEntry, List.take_add_one, entry, Option.toList_some,
      decodeFrom_concat, ← hs.image_decoded, Bool.false_or, ← hs.haltSeen_iff, List.length_take_of_le hs.decoder_within,
      Nat.zero_add]
  haltSeen_iff := by simp [haltSeenAfter, hs.haltSeen_iff]
  decoder_within := (List.getElem?_eq_some_iff.mp entry).1
  decoder_done engine := nomatch phase.symm.trans engine
  cycle_counts := hs.cycle_counts
  decoding_idle := hs.decoding_idle

/-- The engine reset keeps the invariant: it comes at the end of the entries, and puts memory and the counters at their
reset values (R190, R191). -/
theorem engineReset_inv {s : State} (hs : s.Inv) (done : s.entries.length ≤ s.nextEntry) : (engineReset s).Inv where
  width_ok := hs.width_ok
  mem_wf := initialMemory_wf _ _
  upper_slots_zero := upperZero_initialMemory _ _
  image_decoded := hs.image_decoded
  haltSeen_iff := hs.haltSeen_iff
  decoder_within := hs.decoder_within
  decoder_done _ := Nat.le_antisymm hs.decoder_within done
  cycle_counts := rfl
  decoding_idle := nofun

/-! Which instruction an effect belongs to (R103). -/

/-- `i` names `r` as its destination: `rd` of the five ALU rows and of the two immediate rows, `rt` of LDUR (R21). -/
def NamesDestination (i : Instr) (r : RegIdx) : Prop :=
  i.mnemonic ∈ [Mnemonic.ADD, .AND, .ORR, .EOR, .SUB] ∧ (∃ rn rm shamt, i.fields = .r r rn rm shamt) ∨
    i.mnemonic ∈ [Mnemonic.ADDI, .SUBI] ∧ (∃ rn imm, i.fields = .i r rn imm) ∨
    i.mnemonic = .LDUR ∧ (∃ rn address op2, i.fields = .d r rn address op2)

theorem namesDestination_of_alu {i : Instr} {rd rn rm : RegIdx} {shamt : Nat}
    (row : i.mnemonic ∈ [Mnemonic.ADD, .AND, .ORR, .EOR, .SUB]) (fields : i.fields = .r rd rn rm shamt) :
    NamesDestination i rd := .inl ⟨row, rn, rm, shamt, fields⟩

theorem namesDestination_of_immediate {i : Instr} {rd rn : RegIdx} {imm : Int}
    (row : i.mnemonic ∈ [Mnemonic.ADDI, .SUBI]) (fields : i.fields = .i rd rn imm) :
    NamesDestination i rd := .inr (.inl ⟨row, rn, imm, fields⟩)

theorem namesDestination_ldur (rt rn : RegIdx) (address op2 : Nat) : NamesDestination (.ldur rt rn address op2) rt :=
  .inr (.inr ⟨rfl, rn, address, op2, rfl⟩)

/-- `Effect` with the instruction it comes from: a register is written by an instruction that names it, a bank by a STUR at
its effective address, and `halted` is set by BREAK. -/
inductive EffectOf (s : State) : Instr → State → Prop where
  | none (i : Instr) : EffectOf s i s
  | register {i : Instr} {r : RegIdx} (v : BitVec s.params.width) (named : NamesDestination i r) :
      EffectOf s i (s.setReg r v)
  | bank (rt rn : RegIdx) (address op2 : Nat) :
      EffectOf s (.stur rt rn address op2) (s.store (effectiveAddress s rn address) (s.reg rt))
  | halted : EffectOf s .brk s.halt

/-- `exec_cases`, with the effect of each instruction told apart. -/
theorem exec_effectOf (i : Instr) (s : State) :
    ∃ t, exec i s = .next t ∧
      ((∃ u npc, EffectOf s i u ∧ t = u.retire i npc) ∨ t = s.stop (.refused i.mnemonic)) := by
  cases i with
  | and | add | orr | sub | eor =>
    exact ⟨_, rfl, .inl ⟨_, _, .register _ (namesDestination_of_alu (by simp [Instr.mnemonic]) rfl), rfl⟩⟩
  | addi | subi =>
    exact ⟨_, rfl, .inl ⟨_, _, .register _ (namesDestination_of_immediate (by simp [Instr.mnemonic]) rfl), rfl⟩⟩
  | ldur rt rn address op2 =>
    exact ⟨_, rfl, .inl ⟨_, _, .register _ (namesDestination_ldur rt rn address op2), rfl⟩⟩
  | stur rt rn address op2 => exact ⟨_, rfl, .inl ⟨_, _, .bank rt rn address op2, rfl⟩⟩
  | brk => exact ⟨_, rfl, .inl ⟨_, _, .halted, rfl⟩⟩
  | b | cbz | cbnz | nop => exact ⟨_, rfl, .inl ⟨_, _, .none _, rfl⟩⟩
  | movz | movk | lsr | lsl | asr =>
    refine ⟨_, rfl, ?_⟩
    rcases incompleteOp_cases s _ with ⟨-, h⟩ | ⟨-, h⟩
    · exact .inl ⟨s, _, .none _, h⟩
    · exact .inr h

/-- A register that an effect changes is a destination of its instruction (R21). -/
theorem EffectOf.namesDestination {s u : State} {i : Instr} {r : RegIdx} (h : EffectOf s i u)
    (changed : u.regVal r ≠ s.regVal r) : NamesDestination i r := by
  cases h with
  | @register _ q v named =>
    by_cases hr : r = q
    · exact hr ▸ named
    · exact absurd (regVal_setReg_other s v hr) changed
  | none | bank | halted => exact absurd rfl changed

/-- A key whose bank an effect changes is the effective address of a STUR (R31, R32). -/
theorem EffectOf.stur_of_slots_ne {s u : State} {i : Instr} {key : Int} (h : EffectOf s i u)
    (changed : u.slots key ≠ s.slots key) :
    ∃ rt rn address op2, i = .stur rt rn address op2 ∧ BitVec.ofInt s.width key = effectiveAddress s rn address := by
  cases h with
  | bank rt rn address op2 =>
    refine ⟨rt, rn, address, op2, rfl, ?_⟩
    by_contra hkey
    exact changed ((slots_store s _ _ key).trans (if_neg hkey))
  | none | register | halted => exact absurd rfl changed

/-- A store removes no bank (R46). -/
theorem slots_isSome_store (s : State) (a v : BitVec s.params.width) {key : Int} (h : (s.slots key).isSome = true) :
    ((s.store a v).slots key).isSome = true := by
  rw [slots_store]
  split
  · rfl
  · exact h

/-- No effect removes a bank (R31). -/
theorem EffectOf.slots_isSome {s u : State} {i : Instr} {key : Int} (h : EffectOf s i u)
    (bank : (s.slots key).isSome = true) : (u.slots key).isSome = true := by
  cases h with
  | bank => exact slots_isSome_store s _ _ bank
  | none | register | halted => exact bank

/-- An effect that sets `halted` is BREAK's (R25). -/
theorem EffectOf.brk_of_halted {s u : State} {i : Instr} (h : EffectOf s i u) (before : s.halted = false)
    (after : u.halted = true) : i = .brk := by
  cases h with
  | halted => rfl
  | none | register | bank => exact absurd (before.symm.trans after) Bool.false_ne_true

/-! What one step of the engine does. -/

/-- A step of the engine leaves registers, banks and `halted` alone, or retires the instruction at `pc` after that
instruction's own effect. -/
theorem engine_step_quiet_or_retires {s t : State} (phase : s.phase = .engine) (h : step s = .next t) :
    (SameRegs s t ∧ SameMemory s t ∧ t.halted = s.halted) ∨
      ∃ record i u npc, fetch s = some record ∧ engineInstr record = some i ∧ EffectOf s i u ∧ t = u.retire i npc := by
  cases step_kind h with
  | decode _ decoding | reset decoding => exact nomatch decoding.symm.trans phase
  | ended | stop | skip => exact .inl ⟨fun _ => rfl, fun _ => rfl, rfl⟩
  | retire record i npc u _ fetched instr _ ran =>
    obtain ⟨t, ht, hcase⟩ := exec_effectOf i s
    obtain rfl := Host.Outcome.next.inj (ran.symm.trans ht)
    rcases hcase with ⟨v, npc', effect, hv⟩ | hstop
    · exact .inr ⟨record, i, v, npc', fetched, instr, effect, hv⟩
    · rw [hstop]
      exact .inl ⟨fun _ => rfl, fun _ => rfl, rfl⟩

/-- A step of the engine leaves what the decoder owns and the launch fixed (R30, R55). -/
theorem engine_step_sameProgram {s t : State} (phase : s.phase = .engine) (h : step s = .next t) : SameProgram s t := by
  cases step_kind h with
  | decode _ decoding | reset decoding => exact nomatch decoding.symm.trans phase
  | ended | stop | skip => exact ⟨rfl, rfl, rfl, rfl, rfl, rfl⟩
  | retire _ _ _ _ _ _ _ effect => exact effect.sameProgram

/-- A step of the engine emits one event, or reports one skip, or does neither (R104, R106). -/
theorem engine_step_outputs {s t : State} (phase : s.phase = .engine) (h : step s = .next t) :
    ∃ events diags, t.trace = s.trace ++ events ∧ t.diag = s.diag ++ diags ∧ events.length + diags.length ≤ 1 ∧
      t.cycle = s.cycle + events.length := by
  cases step_kind h with
  | decode _ decoding | reset decoding => exact nomatch decoding.symm.trans phase
  | ended | stop => exact ⟨[], [], by simp⟩
  | skip => exact ⟨[], [⟨.skippedRecord, s.pc.toNat⟩], by simp⟩
  | retire _ i _ u _ _ _ effect =>
    exact ⟨[retireEvent i u], [], by simp [effect.trace_eq, effect.diag_eq, effect.cycle_eq]⟩

/-- A step of the engine keeps memory canonical. -/
theorem engine_step_mem_wf {s t : State} (phase : s.phase = .engine) (h : step s = .next t) (hm : Memory.wf s.mem) :
    Memory.wf t.mem := by
  cases step_kind h with
  | decode _ decoding | reset decoding => exact nomatch decoding.symm.trans phase
  | ended | stop | skip => exact hm
  | retire _ _ _ _ _ _ _ effect => exact effect.mem_wf hm

/-- A step of the engine keeps slots 1 to 7 at 0 (R32). -/
theorem engine_step_upperZero {s t : State} (phase : s.phase = .engine) (h : step s = .next t) (hz : UpperZero s.mem) :
    UpperZero t.mem := by
  cases step_kind h with
  | decode _ decoding | reset decoding => exact nomatch decoding.symm.trans phase
  | ended | stop | skip => exact hz
  | retire _ _ _ _ _ _ _ effect => exact effect.upperZero hz

/-- While `halted` is set, no step of the engine retires or moves on (R25). -/
theorem engine_step_of_halted {s t : State} (phase : s.phase = .engine) (h : step s = .next t) (halted : s.halted = true) :
    t.halted = true ∧ t.trace = s.trace ∧ t.cycle = s.cycle ∧ t.pc = s.pc := by
  cases step_kind h with
  | decode _ decoding | reset decoding => exact nomatch decoding.symm.trans phase
  | ended | stop => exact ⟨halted, rfl, rfl, rfl⟩
  | skip _ active | retire _ _ _ _ active =>
    obtain ⟨-, -, notHalted⟩ := active
    exact absurd (notHalted.symm.trans halted) Bool.false_ne_true

/-- A step of the engine keeps the invariant: the decoder's clauses because the program stays, the others one by one. -/
theorem engine_step_inv {s t : State} (hs : s.Inv) (phase : s.phase = .engine) (h : step s = .next t) : t.Inv := by
  obtain ⟨params, entries, phase_eq, haltSeen, nextEntry, image⟩ := engine_step_sameProgram phase h
  obtain ⟨events, _, trace, _, _, cycle⟩ := engine_step_outputs phase h
  exact {
    width_ok := by rw [params]; exact hs.width_ok
    mem_wf := engine_step_mem_wf phase h hs.mem_wf
    upper_slots_zero := engine_step_upperZero phase h hs.upper_slots_zero
    image_decoded := by rw [image, entries, nextEntry]; exact hs.image_decoded
    haltSeen_iff := by rw [haltSeen, image]; exact hs.haltSeen_iff
    decoder_within := by rw [nextEntry, entries]; exact hs.decoder_within
    decoder_done := fun _ => by rw [nextEntry, entries]; exact hs.decoder_done phase
    cycle_counts := by rw [cycle, trace, List.length_append, hs.cycle_counts]; omega
    decoding_idle := fun decoding => nomatch decoding.symm.trans (phase_eq.trans phase) }

end Sys2Proof.Machine

/-! The statements. -/

namespace Sys2Proof.Proofs

open Sys2Proof Sys2Proof.Machine

/-- Settles O56: the two kinds of step in the decoding phase one by one, those of the engine together. -/
theorem stepKeepsTheInvariant : Obligations.StepKeepsTheInvariant := by
  intro s t hs h
  cases hp : s.phase with
  | engine => exact engine_step_inv hs hp h
  | decoding =>
    cases step_kind h with
    | decode e phase entry => exact decodeEntry_inv hs phase entry
    | reset _ done => exact engineReset_inv hs done
    | ended engine | stop _ engine => exact nomatch hp.symm.trans engine
    | skip _ active | retire _ _ _ _ active => exact nomatch hp.symm.trans active.1

/-- Settles O50: a step that changes a register retires an instruction, and its effect writes only a destination. -/
theorem onlyDestinationsAreWritten : Obligations.OnlyDestinationsAreWritten := by
  intro s t r phase h changed
  rcases engine_step_quiet_or_retires phase h with ⟨regs, -, -⟩ | ⟨record, i, u, npc, fetched, instr, effect, rfl⟩
  · exact absurd (regs r) changed
  · exact ⟨record, i, fetched, instr, effect.namesDestination changed⟩

/-- Settles O51: a quiet step leaves every bank, an effect keeps every bank and changes one as a STUR only. -/
theorem onlySturChangesMemory : Obligations.OnlySturChangesMemory := by
  intro s t key phase h
  rcases engine_step_quiet_or_retires phase h with ⟨-, memory, -⟩ | ⟨record, i, u, npc, fetched, instr, effect, rfl⟩
  · exact ⟨fun bank => by rw [memory key]; exact bank, fun changed => absurd (memory key) changed⟩
  · refine ⟨effect.slots_isSome, fun changed => ?_⟩
    obtain ⟨rt, rn, address, op2, rfl, hkey⟩ := effect.stur_of_slots_ne changed
    exact ⟨record, rt, rn, address, op2, fetched, instr, hkey⟩

/-- Settles O52, by the kind of the step: stop, skip and retirement write none of these fields. -/
theorem imageIsReadOnlyToTheEngine : Obligations.ImageIsReadOnlyToTheEngine :=
  fun _ _ phase h => engine_step_sameProgram phase h

/-- Settles O53, by the kind of the step: a skip adds its diagnostic, a retirement its event, the others nothing. -/
theorem engineOutputsOnlyGrow : Obligations.EngineOutputsOnlyGrow :=
  fun _ _ phase h => engine_step_outputs phase h

/-- Settles O54: no record is reached while `halted` is set, and only BREAK's effect sets it. -/
theorem haltedIsSetByBreakAndStays : Obligations.HaltedIsSetByBreakAndStays := by
  intro s t phase h
  refine ⟨engine_step_of_halted phase h, fun before after => ?_⟩
  rcases engine_step_quiet_or_retires phase h with ⟨-, -, same⟩ | ⟨record, i, u, npc, fetched, instr, effect, rfl⟩
  · exact absurd (before.symm.trans (same.symm.trans after)) Bool.false_ne_true
  · obtain rfl := effect.brk_of_halted before after
    exact ⟨record, fetched, instr⟩

end Sys2Proof.Proofs

/-! PROOFS, the memory family (20_memory.md): the effective address, a load after a store, the line of a word, and the preload. -/

/-! The effective address (R44). -/

namespace Sys2Proof.Machine

/-- The effective address in signed numbers: base plus four times the offset, reduced modulo `2^W` (R44). -/
theorem eaVal_eq_bmod (s : State) (rn : RegIdx) (address : Nat) :
    s.eaVal rn address = (s.regVal rn + 4 * address).bmod (2 ^ s.width) := by
  calc s.eaVal rn address
      = (s.regVal rn + (BitVec.ofNat s.width (address * 4)).toInt).bmod (2 ^ s.width) := BitVec.toInt_add _ _
    _ = (s.regVal rn + 4 * address).bmod (2 ^ s.width) := by
        rw [BitVec.toInt_ofNat', Int.add_bmod_bmod, Nat.cast_mul, Nat.cast_ofNat, mul_comm (address : Int)]

/-- The key named by the signed effective address is the effective address. -/
theorem ofInt_eaVal (s : State) (rn : RegIdx) (address : Nat) :
    BitVec.ofInt s.width (s.eaVal rn address) = effectiveAddress s rn address := BitVec.ofInt_toInt

/-! Loads and stores (R45, R46). -/

theorem exec_stur (rt rn : RegIdx) (address op2 : Nat) (s : State) :
    exec (.stur rt rn address op2) s =
      .next ((s.store (effectiveAddress s rn address) (s.reg rt)).retire (.stur rt rn address op2) (nextIndex s)) := rfl

theorem exec_ldur (rt rn : RegIdx) (address op2 : Nat) (s : State) :
    exec (.ldur rt rn address op2) s =
      .next ((s.setReg rt (s.load (effectiveAddress s rn address))).retire (.ldur rt rn address op2) (nextIndex s)) := rfl

/-- A load of the key just stored gives the value stored, whole (R47). -/
theorem load_store_same (s : State) (a v : BitVec s.params.width) : (s.store a v).load a = v :=
  memRead_memWrite_same s.mem a v

/-- A store leaves what every other key loads (R41). -/
theorem loadVal_store_other (s : State) (a v : BitVec s.params.width) {key : Int}
    (h : BitVec.ofInt s.width key ≠ a) : (s.store a v).loadVal key = s.loadVal key :=
  congrArg BitVec.toInt (memRead_memWrite_other s.mem v h)

/-- Writing a value again where it was just written changes no bank (R52). -/
theorem bankAt_memWrite_again {width : Nat} (m : Memory width) (a v k : BitVec width) :
    bankAt (memWrite (memWrite m a v) a v) k = bankAt (memWrite m a v) k := by
  by_cases h : k = a
  · simp [bankAt_memWrite, h]
  · simp [bankAt_memWrite, h]

/-- A repeated store leaves every bank as one store does (R52). -/
theorem sameMemory_store_again (s : State) (a v : BitVec s.params.width) :
    SameMemory (s.store a v) ((s.store a v).store a v) :=
  fun _ => congrArg (Option.map signedValues) (bankAt_memWrite_again s.mem a v _)

/-! The line of a word (R42). -/

@[simp] theorem bitsText_toList (w : InstrWord) (lo len : Nat) :
    (bitsText w lo len).toList =
      (List.range len).reverse.map (fun k => if w.getLsbD (lo + k) then '1' else '0') := String.toList_ofList

/-- A text of one bit more: the bits above, then bit `lo`. -/
theorem bitsText_succ (w : InstrWord) (lo len : Nat) :
    (bitsText w lo (len + 1)).toList =
      (bitsText w (lo + 1) len).toList ++ [if w.getLsbD lo then '1' else '0'] := by
  simp [List.range_succ_eq_map, Function.comp_def, Nat.add_assoc, Nat.add_comm 1]

/-- The text of a slice is read back as the slice, most significant bit first (R42). -/
theorem readBits_bitsText (w : InstrWord) (lo len : Nat) :
    readBits (bitsText w lo len).toList = some (w.toNat / 2 ^ lo % 2 ^ len) := by
  induction len generalizing lo with
  | zero => simp [Nat.mod_one]
  | succ len ih =>
    have hbit : w.getLsbD lo = decide (w.toNat / 2 ^ lo % 2 = 1) := Nat.testBit_eq_decide_div_mod_eq
    have hsplit : w.toNat / 2 ^ lo % 2 ^ (len + 1) =
        2 * (w.toNat / 2 ^ (lo + 1) % 2 ^ len) + w.toNat / 2 ^ lo % 2 := by
      rw [pow_succ' 2 len, Nat.mod_mul, pow_succ 2 lo, ← Nat.div_div_eq_div_mul, Nat.add_comm]
    rw [bitsText_succ, readBits_concat, ih, Option.bind_some, hsplit, hbit]
    rcases Nat.mod_two_eq_zero_or_one (w.toNat / 2 ^ lo) with h | h <;> simp [h]

/-- No character of a bit text is white space. -/
theorem not_isBlank_of_mem_bitsText {w : InstrWord} {lo len : Nat} {c : Char} (h : c ∈ (bitsText w lo len).toList) :
    isBlank c = false := by
  rw [bitsText_toList] at h
  obtain ⟨k, -, rfl⟩ := List.mem_map.mp h
  split_ifs <;> rfl

/-- White space in front of a character that is none is all that is dropped. -/
theorem dropWhile_isBlank_append {blanks cs : List Char} (hb : blanks.all isBlank = true)
    (hc : ∀ c ∈ cs.head?, isBlank c = false) : (blanks ++ cs).dropWhile isBlank = cs := by
  rw [List.dropWhile_append_of_pos (List.all_eq_true.mp hb)]
  cases cs with
  | nil => rfl
  | cons c cs => exact List.dropWhile_cons_of_neg (Bool.eq_false_iff.mp (hc c rfl))

/-- Stripping removes the white space around characters that are none (R7). -/
theorem strip_append {before cs after : List Char} (hb : before.all isBlank = true) (ha : after.all isBlank = true)
    (hne : cs ≠ []) (hc : ∀ c ∈ cs, isBlank c = false) : strip (before ++ cs ++ after) = cs := by
  have hfront : (before ++ (cs ++ after)).dropWhile isBlank = cs ++ after :=
    dropWhile_isBlank_append hb fun c h => hc c (List.mem_of_head? (List.head?_append_of_ne_nil cs hne ▸ h))
  have hback : (after.reverse ++ cs.reverse).dropWhile isBlank = cs.reverse :=
    dropWhile_isBlank_append (by rwa [List.all_reverse]) fun c h => hc c (List.mem_reverse.mp (List.mem_of_head? h))
  rw [strip, List.append_assoc, hfront, List.reverse_append, hback, List.reverse_reverse]

/-- The line of a word, white space around it, gives the word (R7, R42). -/
theorem wordOfLine_lineOfWord {before after : List Char} (w : InstrWord) (hb : before.all isBlank = true)
    (ha : after.all isBlank = true) :
    wordOfLine (String.ofList (before ++ (lineOfWord w).toList ++ after)) = some w := by
  have hlen : (lineOfWord w).toList.length = 32 := by simp [lineOfWord]
  have hstrip : strip (before ++ (lineOfWord w).toList ++ after) = (lineOfWord w).toList :=
    strip_append hb ha (List.ne_nil_of_length_pos (by omega)) fun c hc => not_isBlank_of_mem_bitsText hc
  have hbits : readBits (lineOfWord w).toList = some w.toNat := by
    rw [lineOfWord, readBits_bitsText, Nat.pow_zero, Nat.div_one, Nat.mod_eq_of_lt w.isLt]
  rw [wordOfLine, String.toList_ofList, hstrip, if_pos hlen, hbits, Option.map_some, BitVec.ofNat_toNat,
    BitVec.setWidth_eq]

/-! The preload (R48). -/

/-- The bank the preload makes of a literal: slot 0 the literal, the other slots 0 (R48). -/
def literalBank (width : Nat) (literal : Int) : Bank width := (freshBank width).set 0 (widen width literal)

/-- The key the preload uses for a record: its address (R48). -/
def Record.key (width : Nat) (record : Record) : BitVec width := BitVec.ofNat width record.address

/-- The preload puts the bank of a record's literal at the record's key (R48). -/
theorem bankAt_preloadRecord_key {width : Nat} (m : Memory width) {record : Record} {literal : Int}
    (hf : record.fields = .rawData literal) :
    bankAt (preloadRecord m record) (record.key width) = some (literalBank width literal) := by
  rw [bankAt_preloadRecord, hf]
  exact if_pos rfl

/-- A record without a literal, or with another key, puts nothing at a key (R48). -/
theorem bankAt_preloadRecord_other {width : Nat} (m : Memory width) {record : Record} {k : BitVec width}
    (h : ∀ literal, record.fields = .rawData literal → k ≠ record.key width) :
    bankAt (preloadRecord m record) k = bankAt m k := by
  rw [bankAt_preloadRecord]
  split
  · rename_i literal hf
    exact if_neg (h literal hf)
  · rfl

/-- Where no two records have one key, the preload leaves exactly the banks of their literals (R48). -/
theorem bankAt_preload_iff {width : Nat} {image : List Record} (distinct : (image.map (Record.key width)).Nodup)
    (k : BitVec width) (b : Bank width) :
    bankAt (image.foldl preloadRecord []) k = some b ↔
      ∃ record ∈ image, ∃ literal, record.fields = .rawData literal ∧ k = record.key width ∧
        b = literalBank width literal := by
  induction image using List.reverseRecOn with
  | nil => simp
  | append_singleton image last ih =>
    rw [List.map_append, List.map_singleton, ← List.concat_eq_append, List.nodup_concat] at distinct
    obtain ⟨fresh, distinct⟩ := distinct
    rw [List.foldl_append, List.foldl_cons, List.foldl_nil]
    simp only [List.mem_append, List.mem_singleton, or_and_right, exists_or, exists_eq_left]
    by_cases hlast : ∃ literal, last.fields = .rawData literal ∧ k = last.key width
    · obtain ⟨literal, hf, rfl⟩ := hlast
      rw [bankAt_preloadRecord_key _ hf]
      constructor
      · intro h
        exact .inr ⟨literal, hf, rfl, (Option.some.inj h).symm⟩
      · rintro (⟨record, hr, _, -, hkey, -⟩ | ⟨literal', hf', -, rfl⟩)
        · exact absurd (hkey ▸ List.mem_map_of_mem hr) fresh
        · obtain rfl := Fields.rawData.inj (hf.symm.trans hf')
          rfl
    · rw [bankAt_preloadRecord_other _ fun literal hf hkey => hlast ⟨literal, hf, hkey⟩, ih distinct]
      exact (or_iff_left fun ⟨literal, hf, hkey, _⟩ => hlast ⟨literal, hf, hkey⟩).symm

/-! The records of the decode pass (R82). -/

theorem buildRecord_address (haltSeen : Bool) (i : Nat) (e : Entry) :
    (buildRecord haltSeen i e).address = entryAddress i := by
  unfold buildRecord
  split
  · rfl
  · split
    · rfl
    · split <;> rfl

/-- The fields of a record fit the widths of their format (R70). -/
theorem buildRecord_fields_wellFormed (haltSeen : Bool) (i : Nat) (e : Entry) :
    (buildRecord haltSeen i e).fields.wellFormed = true := by
  unfold buildRecord
  split
  · rfl
  · split
    · exact extractFields_wellFormed _ .rawData
    · split
      · rfl
      · exact extractFields_wellFormed _ _

/-- The records stand at `96 + 4*i`, one for each entry, in the order of the entries (R82, R84). -/
theorem decodeFrom_map_address (haltSeen : Bool) (i : Nat) (es : List Entry) :
    (decodeFrom haltSeen i es).map Record.address = List.range' (entryAddress i) es.length 4 := by
  induction es generalizing haltSeen i with
  | nil => rfl
  | cons e es ih =>
    have hnext : entryAddress (i + 1) = entryAddress i + 4 := rfl
    simp [decodeFrom, List.range'_succ, buildRecord_address, ih, hnext]

/-- The addresses of an image count from 96 in steps of 4 (R82). -/
theorem image_map_address (entries : List Entry) :
    (decodeFrom false 0 entries).map Record.address = List.range' 96 entries.length 4 :=
  decodeFrom_map_address false 0 entries

theorem decodeFrom_fields_wellFormed {haltSeen : Bool} {i : Nat} {es : List Entry} {record : Record}
    (h : record ∈ decodeFrom haltSeen i es) : record.fields.wellFormed = true := by
  induction es generalizing haltSeen i with
  | nil => exact nomatch h
  | cons e es ih =>
    rcases List.mem_cons.mp h with rfl | h
    · exact buildRecord_fields_wellFormed _ _ _
    · exact ih h

/-- The record of index `i` stands at `96 + 4*i`, below the end of the image (R82). -/
theorem decodeFrom_address {entries : List Entry} {i : Nat} {record : Record}
    (h : (decodeFrom false 0 entries)[i]? = some record) : record.address = 96 + 4 * i ∧ i < entries.length := by
  have haddr : (List.range' 96 entries.length 4)[i]? = some record.address := by
    rw [← image_map_address, List.getElem?_map, h]
    rfl
  obtain ⟨hi, haddr⟩ := List.getElem?_eq_some_iff.mp haddr
  rw [List.getElem_range'] at haddr
  rw [List.length_range'] at hi
  omega

/-- In an image that ends within the range of keys no two records have one key. -/
theorem decodeFrom_keys_nodup {width : Nat} {entries : List Entry} (short : 96 + 4 * entries.length ≤ 2 ^ width) :
    ((decodeFrom false 0 entries).map (Record.key width)).Nodup := by
  have hkeys : (decodeFrom false 0 entries).map (Record.key width) =
      (List.range' 96 entries.length 4).map (BitVec.ofNat width) := by
    rw [← image_map_address, List.map_map]
    rfl
  rw [hkeys]
  refine List.Nodup.map_on (fun a ha b hb hab => ?_) (List.nodup_range' 4 (by decide))
  obtain ⟨i, hi, rfl⟩ := List.mem_range'.mp ha
  obtain ⟨j, hj, rfl⟩ := List.mem_range'.mp hb
  have hmod := congrArg BitVec.toNat hab
  rwa [BitVec.toNat_ofNat, BitVec.toNat_ofNat, Nat.mod_eq_of_lt (by omega), Nat.mod_eq_of_lt (by omega)] at hmod

/-! The preloaded banks in signed numbers (R12, D1). -/

/-- Slots of at least 32 bits show a 32-bit literal as it is (D1). -/
theorem toInt_widen_literal {width : Nat} {literal : Int} (hw : 32 ≤ width) (hl : fitsSigned 32 literal = true) :
    (widen width literal).toInt = literal := by
  have hpow : (2 : Int) ^ 31 ≤ 2 ^ (width - 1) := pow_le_pow_right₀ (by decide) (by omega)
  obtain ⟨low, high⟩ := of_decide_eq_true hl
  exact BitVec.toInt_ofInt_eq_self (by omega) (by omega) (by omega)

/-- The bank of a literal in signed numbers (R48). -/
theorem signedValues_literalBank {width : Nat} {literal : Int} (hw : 32 ≤ width)
    (hl : fitsSigned 32 literal = true) :
    signedValues (literalBank width literal) = #v[literal, 0, 0, 0, 0, 0, 0, 0] := by
  ext j hj
  rw [signedValues_getElem, literalBank]
  rcases Nat.eq_zero_or_pos j with rfl | hpos
  · simpa using toInt_widen_literal hw hl
  · rw [Vector.getElem_set_ne (h := by omega)]
    interval_cases j <;> simp [freshBank]

/-- A signed key names an address within the signed range only as that address (R43). -/
theorem ofInt_eq_ofNat_iff {width a : Nat} {key : Int} (hw : 0 < width) (low : -(2 ^ (width - 1)) ≤ key)
    (high : key < 2 ^ (width - 1)) (ha : a < 2 ^ (width - 1)) :
    BitVec.ofInt width key = BitVec.ofNat width a ↔ key = a := by
  have hzero : -(2 ^ (width - 1)) ≤ (a : Int) := (neg_nonpos.mpr (by positivity)).trans (Int.natCast_nonneg a)
  have htop : (a : Int) < 2 ^ (width - 1) := by exact_mod_cast ha
  rw [← BitVec.ofInt_natCast]
  refine ⟨fun h => ?_, congrArg (BitVec.ofInt width)⟩
  rw [← BitVec.toInt_ofInt_eq_self hw low high, h, BitVec.toInt_ofInt_eq_self hw hzero htop]

/-- The banks of a launch with preload, at the engine reset (R48). -/
theorem slots_boot_preload {p : Params} (entries : List Entry) (preload : p.preloadData = true) (key : Int) :
    (boot p entries).slots key =
      (bankAt ((decodeFrom false 0 entries).foldl preloadRecord []) (BitVec.ofInt p.width key)).map signedValues := by
  have hmem : (boot p entries).mem = (decodeFrom false 0 entries).foldl preloadRecord [] := if_pos preload
  rw [State.slots, hmem]
  rfl

/-- Without preload no bank exists at the engine reset (R31). -/
theorem slots_boot_noPreload {p : Params} (entries : List Entry) (noPreload : p.preloadData = false) (key : Int) :
    (boot p entries).slots key = none :=
  slots_of_mem_nil (if_neg (Bool.eq_false_iff.mp noPreload)) key

end Sys2Proof.Machine

/-! The statements. -/

namespace Sys2Proof.Proofs

open Sys2Proof Sys2Proof.Machine

/-- Settles O42: the sum is reduced by `eaVal_eq_bmod`, and the offset is a 9-bit field. -/
theorem effectiveAddressIsBasePlusScaledOffset : Obligations.EffectiveAddressIsBasePlusScaledOffset := by
  intro s rn w
  rw [eaVal_eq_bmod, unsignedAt_eq]
  exact ⟨rfl, by omega⟩

/-- Settles O48: a store moves no register, so the second instruction names the same key and the same value. -/
theorem loadReturnsTheStoredValue : Obligations.LoadReturnsTheStoredValue := by
  intro rt rn rd address op2 op2' s t h
  obtain rfl := Host.Outcome.next.inj h
  refine ⟨⟨_, exec_ldur .., ?_⟩, ⟨_, exec_stur .., ?_⟩, fun key hkey => ?_⟩
  · rw [regVal_retire, regVal_setReg_same]
    exact congrArg BitVec.toInt (load_store_same s (effectiveAddress s rn address) (s.reg rt))
  · exact sameMemory_store_again s (effectiveAddress s rn address) (s.reg rt)
  · rw [ofInt_eaVal] at hkey
    exact loadVal_store_other s _ _ hkey

/-- Settles O11: the characters by their places, the reading back by stripping and then reading the bits. -/
theorem lineOfWordIsReadMostSignificantFirst : Obligations.LineOfWordIsReadMostSignificantFirst := by
  intro w
  refine ⟨by simp [lineOfWord], fun k hk => ?_, fun before after hb ha => ?_⟩
  · simp [lineOfWord, hk]
  · exact ofLine_of_wordOfLine (wordOfLine_lineOfWord w hb ha)

/-- Settles O20: the addresses of a short image are distinct keys, so the preload leaves exactly the banks of the literals. -/
theorem preloadPlacesTheLiterals : Obligations.PreloadPlacesTheLiterals := by
  intro p entries hp short
  refine ⟨slots_boot_noPreload entries, fun preload key slots low high => ?_⟩
  have hw : 32 ≤ p.width := of_decide_eq_true hp
  have hhalf : 2 ^ 31 ≤ 2 ^ (p.width - 1) := Nat.pow_le_pow_right (by decide) (by omega)
  have hfull : 2 ^ 31 ≤ 2 ^ p.width := Nat.pow_le_pow_right (by decide) (by omega)
  rw [slots_boot_preload entries preload, Option.map_eq_some_iff]
  simp only [bankAt_preload_iff (decodeFrom_keys_nodup (short.trans hfull))]
  constructor
  · rintro ⟨_, ⟨record, hmem, literal, hf, hkey, rfl⟩, rfl⟩
    obtain ⟨i, hi⟩ := List.mem_iff_getElem?.mp hmem
    obtain ⟨haddr, hlt⟩ := decodeFrom_address hi
    have hfit := decodeFrom_fields_wellFormed hmem
    rw [Record.key, haddr, ofInt_eq_ofNat_iff (by omega) low high (by omega)] at hkey
    rw [hf] at hfit
    exact ⟨i, record, literal, hi, hf, by simpa using hkey, signedValues_literalBank hw hfit⟩
  · rintro ⟨i, record, literal, hi, hf, rfl, rfl⟩
    have hfit := decodeFrom_fields_wellFormed (List.mem_of_getElem? hi)
    rw [hf] at hfit
    refine ⟨_, ⟨record, List.mem_of_getElem? hi, literal, hf, ?_, rfl⟩, signedValues_literalBank hw hfit⟩
    rw [Record.key, (decodeFrom_address hi).1, ← BitVec.ofInt_natCast]
    rfl

end Sys2Proof.Proofs

/-! PROOFS, the encoding family (30_encoding.md): the rows of the opcode table as intervals, the fields of a word and of an
encoded word, and the records of the decode pass. -/

/-! Fields as numbers (R10, R11). -/

namespace Sys2Proof

/-- Reading `n` bits as a signed number loses nothing modulo `2^n` (R87). -/
theorem sext_emod (n v : Nat) : sext n v % 2 ^ n = ((v % 2 ^ n : Nat) : Int) := by
  have hpow : (2 : Int) ^ n = (2 ^ n : Nat) := by push_cast; rfl
  rw [sext, BitVec.toInt_eq_toNat_bmod, BitVec.toNat_ofNat, hpow, Int.bmod_emod, ← Int.natCast_mod, Nat.mod_mod]

/-- A signed field is its unsigned reading, less `2^len` where its top bit, bit `lo+len-1` of the word, is set (R11). -/
theorem signedAt_eq_sub_sign (w : InstrWord) (lo : Nat) {len : Nat} (hlen : 0 < len) :
    signedAt w lo len =
      ((w.toNat / 2 ^ lo % 2 ^ len : Nat) : Int) - (if w.getLsbD (lo + len - 1) then 2 ^ len else 0) := by
  have hsign : (w.toNat / 2 ^ lo % 2 ^ len).testBit (len - 1) = w.getLsbD (lo + len - 1) := by
    rw [Nat.testBit_mod_two_pow, Nat.testBit_div_two_pow, BitVec.getLsbD, show len - 1 + lo = lo + len - 1 by omega]
    simp [hlen]
  rw [signedAt, slice_toNat, sext_eq_low_sub_sign _ hlen, Nat.mod_mod, hsign]
  split_ifs <;> simp

/-- All 32 bits as a signed field are the signed word (R79). -/
theorem signedAt_word (w : InstrWord) : signedAt w 0 32 = w.toInt := by
  rw [signedAt_eq, BitVec.toInt_eq_toNat_bmod, Nat.pow_zero, Nat.div_one]

/-- A signed field that holds a number within its width modulo `2^len` reads as that number. -/
theorem signedAt_of_residue {w : InstrWord} {lo len : Nat} {v : Int} (hlen : 0 < len)
    (h : w.toNat / 2 ^ lo % 2 ^ len = (v % 2 ^ len).toNat) (hv : fitsSigned len v = true) : signedAt w lo len = v := by
  obtain ⟨low, high⟩ := of_decide_eq_true hv
  have hslice : slice w lo len = BitVec.ofInt len v := by
    apply BitVec.eq_of_toNat_eq
    rw [slice_toNat, h, BitVec.toNat_ofInt, Nat.cast_pow, Nat.cast_ofNat]
  rw [signedAt, sext, BitVec.ofNat_toNat, BitVec.setWidth_eq, hslice, BitVec.toInt_ofInt_eq_self hlen low high]

/-! The rows of the opcode table as intervals of opcode-field values (R72 to R75). -/

/-- The lowest bit of a word that a row of the format fixes: the bits from there up are the row's mask (R74). -/
def Format.fixedFrom : Format → Nat
  | .I => 22
  | .IM => 23
  | .CB => 24
  | .B => 26
  | _ => 21

/-- The first opcode-field value of a mnemonic's row: the opcode field of its match value. -/
def Mnemonic.firstOpcode (mn : Mnemonic) : Nat := (rowPattern mn).1.toNat / 2 ^ 21

/-- The last opcode-field value of a mnemonic's row: the opcode-field bits below the fixed ones are free. -/
def Mnemonic.lastOpcode (mn : Mnemonic) : Nat := mn.firstOpcode + 2 ^ (mn.format.fixedFrom - 21) - 1

/-- A mnemonic's row stands in the table with that interval (R72, R74). -/
theorem row_mem_classifierRows (mn : Mnemonic) : (mn.firstOpcode, mn.lastOpcode, mn, mn.format) ∈ classifierRows := by
  cases mn <;> decide

/-- Every row of the table is the row of its mnemonic (R72). -/
theorem classifierRows_eq_row :
    ∀ row ∈ classifierRows, row = (row.2.2.1.firstOpcode, row.2.2.1.lastOpcode, row.2.2.1, row.2.2.1.format) := by
  decide

/-- The classifier answers a mnemonic exactly on the interval of its row (R72). -/
theorem classify_eq_some_iff (op : OpcodeField) (mn : Mnemonic) :
    classify op = some (mn, mn.format) ↔ mn.firstOpcode ≤ op.toNat ∧ op.toNat ≤ mn.lastOpcode := by
  refine ⟨fun h => ?_, classify_of_row (row_mem_classifierRows mn)⟩
  obtain ⟨lo, hi, hrow, within⟩ := row_of_classify h
  obtain ⟨rfl, rfl, -⟩ := by simpa only [Prod.mk.injEq] using classifierRows_eq_row _ hrow
  exact within

/-- The classifier answers a row's mnemonic with the row's format, or nothing (R72). -/
theorem classify_eq_none_or_some (op : OpcodeField) :
    classify op = none ∨ ∃ mn, classify op = some (mn, mn.format) := by
  cases h : classify op with
  | none => exact .inl rfl
  | some mf => exact .inr ⟨mf.1, by rw [← classify_format h]⟩

/-- BREAK's row is the one value 2038 (R72). -/
theorem classify_eq_break_iff (op : OpcodeField) : classify op = some (.BREAK, .BREAK) ↔ op.toNat = 2038 := by
  have hfirst : Mnemonic.firstOpcode .BREAK = 2038 := rfl
  have hlast : Mnemonic.lastOpcode .BREAK = 2038 := rfl
  rw [show Format.BREAK = Mnemonic.BREAK.format from rfl, classify_eq_some_iff, hfirst, hlast]
  omega

/-- The classifier answers nothing exactly outside every row (R73). -/
theorem classify_eq_none_iff (op : OpcodeField) :
    classify op = none ↔ ∀ row ∈ classifierRows, ¬(row.1 ≤ op.toNat ∧ op.toNat ≤ row.2.1) := by
  simp only [classify, Option.map_eq_none_iff, List.find?_eq_none, decide_eq_true_eq]

/-- The opcode-field values that no row holds, as R75 lists them. -/
def unclassifiedRanges : List (Nat × Nat) :=
  [ (1, 159), (192, 1103), (1105, 1111), (1113, 1159), (1162, 1359), (1361, 1439), (1456, 1623), (1625, 1671),
    (1674, 1683), (1688, 1689), (1693, 1871), (1873, 1939), (1944, 1983), (1985, 1985), (1987, 2037), (2039, 2047) ]

/-- The rows and the listed ranges share out the 2048 opcode-field values (R73, R75). -/
theorem outside_rows_iff_listed {n : Nat} (hn : n < 2048) :
    (∀ row ∈ classifierRows, ¬(row.1 ≤ n ∧ n ≤ row.2.1)) ↔
      ∃ range ∈ unclassifiedRanges, range.1 ≤ n ∧ n ≤ range.2 := by
  simp only [classifierRows, unclassifiedRanges, List.forall_mem_cons, List.exists_mem_cons_iff, List.not_mem_nil,
    not_and_or, not_le, false_and, exists_false, false_imp_iff, implies_true, and_true, or_false]
  constructor
  · intro outside
    omega
  · intro listed
    omega

/-- A row's mask is the bits from its lowest fixed bit up (R74). -/
theorem rowPattern_mask (mn : Mnemonic) : (rowPattern mn).2 = BitVec.allOnes 32 <<< mn.format.fixedFrom := by
  cases mn <;> rfl

/-- A row's match value is 0 below its lowest fixed bit (R74). -/
theorem rowPattern_low (mn : Mnemonic) : (rowPattern mn).1.toNat % 2 ^ mn.format.fixedFrom = 0 := by
  cases mn <;> rfl

/-- A row selects the words that agree with its match value from the lowest fixed bit up (R74). -/
theorem selects_iff_high (mn : Mnemonic) (w : InstrWord) :
    selects mn w = true ↔
      w.toNat / 2 ^ mn.format.fixedFrom = (rowPattern mn).1.toNat / 2 ^ mn.format.fixedFrom := by
  rw [selects, beq_iff_eq, rowPattern_mask, and_highMask_eq_iff _ _ _ (rowPattern_low mn)]

/-- The opcode field is the whole of a word from bit 21 up (R61). -/
theorem opcodeOf_toNat_eq_div (w : InstrWord) : (opcodeOf w).toNat = w.toNat / 2 ^ 21 := by
  rw [opcodeOf_toNat]
  omega

/-- Dividing by `d` gives the quotient of a multiple of `d` exactly on the `d` numbers from it up. -/
theorem div_eq_div_iff_of_dvd {a m d : Nat} (hd : 0 < d) (hm : d ∣ m) : a / d = m / d ↔ m ≤ a ∧ a ≤ m + d - 1 := by
  obtain ⟨q, rfl⟩ := hm
  rw [Nat.mul_div_cancel_left _ hd, Nat.div_eq_iff hd, Nat.mul_comm d q]

/-- A row's mask and match select the words whose opcode field lies in the row's interval (R74). -/
theorem selects_iff_classify (mn : Mnemonic) (w : InstrWord) :
    selects mn w = true ↔ classify (opcodeOf w) = some (mn, mn.format) := by
  rw [selects_iff_high, classify_eq_some_iff, opcodeOf_toNat_eq_div, Mnemonic.lastOpcode, Mnemonic.firstOpcode]
  have hlow := Nat.dvd_of_mod_eq_zero (rowPattern_low mn)
  obtain ⟨free, hfree⟩ : ∃ free, mn.format.fixedFrom = 21 + free :=
    Nat.exists_eq_add_of_le (by cases mn <;> decide)
  rw [hfree, Nat.pow_add] at hlow
  rw [hfree, Nat.add_sub_cancel_left, Nat.pow_add, ← Nat.div_div_eq_div_mul, ← Nat.div_div_eq_div_mul]
  exact div_eq_div_iff_of_dvd (Nat.two_pow_pos free) (Nat.dvd_div_of_mul_dvd hlow)

/-! The number of classified values (R73). -/

/-- The rows' intervals lie apart, one wholly below the other. -/
theorem classifierRows_pairwise_apart :
    classifierRows.Pairwise (fun row row' => row.2.1 < row'.1 ∨ row'.2.1 < row.1) := by decide

/-- A list whose members are pairwise related, though no two members can be, has one member at most. -/
theorem length_le_one_of_pairwise {α : Type} {R : α → α → Prop} {l : List α} (h : l.Pairwise R)
    (hnot : ∀ a ∈ l, ∀ b ∈ l, ¬ R a b) : l.length ≤ 1 := by
  match l with
  | [] | [_] => simp
  | a :: b :: l => exact absurd (List.rel_of_pairwise_cons h (by simp)) (hnot a (by simp) b (by simp))

/-- No two rows hold one value (R73). -/
theorem rows_of_value_length_le_one (n : Nat) :
    (classifierRows.filter (fun row => decide (row.1 ≤ n ∧ n ≤ row.2.1))).length ≤ 1 := by
  refine length_le_one_of_pairwise (classifierRows_pairwise_apart.filter _) fun row hrow row' hrow' => ?_
  obtain ⟨low, high⟩ := of_decide_eq_true (List.mem_filter.mp hrow).2
  obtain ⟨low', high'⟩ := of_decide_eq_true (List.mem_filter.mp hrow').2
  omega

/-- The values of all rows, row by row. -/
def classifiedValues : List Nat := classifierRows.flatMap fun row => List.range' row.1 (row.2.1 + 1 - row.1)

theorem mem_classifiedValues_iff (n : Nat) :
    n ∈ classifiedValues ↔ ∃ row ∈ classifierRows, row.1 ≤ n ∧ n ≤ row.2.1 := by
  simp only [classifiedValues, List.mem_flatMap, List.mem_range'_1]
  refine exists_congr fun row => and_congr_right fun _ => ?_
  omega

theorem classifiedValues_nodup : classifiedValues.Nodup := by
  refine List.nodup_flatMap.mpr ⟨fun row _ => List.nodup_range', classifierRows_pairwise_apart.imp fun hapart => ?_⟩
  intro n hn hn'
  rw [List.mem_range'_1] at hn hn'
  omega

/-- The classified values are the values of the rows (R73). -/
theorem classify_isSome_iff_mem {n : Nat} (hn : n < 2048) :
    (classify (BitVec.ofNat 11 n)).isSome = true ↔ n ∈ classifiedValues := by
  have htoNat : (BitVec.ofNat 11 n).toNat = n := Nat.mod_eq_of_lt hn
  rw [mem_classifiedValues_iff, ← not_iff_not, Option.not_isSome_iff_eq_none, classify_eq_none_iff, htoNat]
  simp only [not_exists, not_and]

/-- No row goes beyond the 11 bits of an opcode field. -/
theorem lt_of_mem_classifiedValues {n : Nat} (h : n ∈ classifiedValues) : n < 2048 := by
  have hlast : ∀ row ∈ classifierRows, row.2.1 < 2048 := by decide
  obtain ⟨row, hrow, -, hle⟩ := (mem_classifiedValues_iff n).mp h
  exact hle.trans_lt (hlast row hrow)

/-- The classified values below 2048 are, in another order, the values of the rows. -/
theorem classified_perm :
    ((List.range 2048).filter (fun n => (classify (BitVec.ofNat 11 n)).isSome)).Perm classifiedValues := by
  refine (List.perm_ext_iff_of_nodup (List.nodup_range.filter _) classifiedValues_nodup).mpr fun n => ?_
  rw [List.mem_filter, List.mem_range]
  constructor
  · rintro ⟨hn, h⟩
    exact (classify_isSome_iff_mem hn).mp h
  · intro h
    have hn := lt_of_mem_classifiedValues h
    exact ⟨hn, (classify_isSome_iff_mem hn).mpr h⟩

/-! Which rows have a format of their own (R62, R72). -/

/-- BREAK alone has the format BREAK (R69). -/
theorem format_eq_break_iff (mn : Mnemonic) : mn.format = .BREAK ↔ mn = .BREAK := by cases mn <;> decide

/-- NOP alone has the format NOP (R69). -/
theorem format_eq_nop_iff (mn : Mnemonic) : mn.format = .NOP ↔ mn = .NOP := by cases mn <;> decide

/-- No row has the format RAW-DATA: the classifier never answers it (R79). -/
theorem format_ne_rawData (mn : Mnemonic) : mn.format ≠ .rawData := by cases mn <;> decide

theorem mnemonic_eq_break_iff (i : Instr) : i.mnemonic = .BREAK ↔ i = .brk := by cases i <;> simp [Instr.mnemonic]

theorem mnemonic_eq_nop_iff (i : Instr) : i.mnemonic = .NOP ↔ i = .nop := by cases i <;> simp [Instr.mnemonic]

/-! Encoded words (R88). -/

/-- The opcode field of an encoded word is classified as the instruction's row, whatever the operands are (R72, R88). -/
theorem classify_encode (i : Instr) : classify (opcodeOf (encode i)) = some (i.mnemonic, i.mnemonic.format) := by
  cases i with
  | b => exact Laws.EncodedOpcode.b ..
  | and => exact Laws.EncodedOpcode.and ..
  | add => exact Laws.EncodedOpcode.add ..
  | addi => exact Laws.EncodedOpcode.addi ..
  | orr => exact Laws.EncodedOpcode.orr ..
  | cbz => exact Laws.EncodedOpcode.cbz ..
  | cbnz => exact Laws.EncodedOpcode.cbnz ..
  | sub => exact Laws.EncodedOpcode.sub ..
  | subi => exact Laws.EncodedOpcode.subi ..
  | movz => exact Laws.EncodedOpcode.movz ..
  | movk => exact Laws.EncodedOpcode.movk ..
  | lsr => exact Laws.EncodedOpcode.lsr ..
  | lsl => exact Laws.EncodedOpcode.lsl ..
  | asr => exact Laws.EncodedOpcode.asr ..
  | eor => exact Laws.EncodedOpcode.eor ..
  | stur => exact Laws.EncodedOpcode.stur ..
  | ldur => exact Laws.EncodedOpcode.ldur ..
  | brk => exact Laws.EncodedOpcode.brk
  | nop => exact Laws.EncodedOpcode.nop

/-- A register field that holds a register's number reads as that register (R86). -/
theorem regAt_of_field {w : InstrWord} {lo : Nat} {r : RegIdx} (h : w.toNat / 2 ^ lo % 32 = r.val) : regAt w lo = r :=
  Fin.ext ((regAt_val w lo).trans h)

/-- An unsigned field that holds a number reads as that number. -/
theorem unsignedAt_of_field {w : InstrWord} {lo len v : Nat} (h : w.toNat / 2 ^ lo % 2 ^ len = v) :
    unsignedAt w lo len = v := (unsignedAt_eq w lo len).trans h

/-! What the extractor reads in a word built from fields that fit, one lemma a format (R63 to R68). -/

theorem extractFields_encodeR (op : BitVec 11) (rd rn rm : RegIdx) {shamt : Nat}
    (h : (Fields.r rd rn rm shamt).wellFormed = true) :
    extractFields (encodeR op rd rn rm shamt) .R = .r rd rn rm shamt := by
  have hw := encodeR_toNat op rd rn rm shamt
  have hs : shamt < 2 ^ 6 := of_decide_eq_true h
  rw [extractFields, regAt_of_field (r := rd), regAt_of_field (r := rn), regAt_of_field (r := rm),
    unsignedAt_of_field (v := shamt)] <;> omega

theorem extractFields_encodeI (op : BitVec 10) (rd rn : RegIdx) {imm : Int}
    (h : (Fields.i rd rn imm).wellFormed = true) : extractFields (encodeI op rd rn imm) .I = .i rd rn imm := by
  have hw := encodeI_toNat op rd rn imm
  rw [extractFields, regAt_of_field (r := rd), regAt_of_field (r := rn), signedAt_of_residue (by decide) _ h] <;> omega

theorem extractFields_encodeCB (op : BitVec 8) (rt : RegIdx) {offset : Int}
    (h : (Fields.cb rt offset).wellFormed = true) : extractFields (encodeCB op rt offset) .CB = .cb rt offset := by
  have hw := encodeCB_toNat op rt offset
  rw [extractFields, regAt_of_field (r := rt), signedAt_of_residue (by decide) _ h] <;> omega

theorem extractFields_encodeIM (op : BitVec 9) (rd : RegIdx) {field shiftCode : Nat}
    (h : (Fields.im rd field shiftCode).wellFormed = true) :
    extractFields (encodeIM op rd field shiftCode) .IM = .im rd field shiftCode := by
  have hw := encodeIM_toNat op rd field shiftCode
  obtain ⟨hf, hc⟩ : field < 2 ^ 16 ∧ shiftCode < 2 ^ 2 := by simpa [Fields.wellFormed, fitsUnsigned] using h
  rw [extractFields, regAt_of_field (r := rd), unsignedAt_of_field (v := field),
    unsignedAt_of_field (v := shiftCode)] <;> omega

theorem extractFields_encodeD (op : BitVec 11) (rt rn : RegIdx) {address op2 : Nat}
    (h : (Fields.d rt rn address op2).wellFormed = true) :
    extractFields (encodeD op rt rn address op2) .D = .d rt rn address op2 := by
  have hw := encodeD_toNat op rt rn address op2
  obtain ⟨ha, ho⟩ : address < 2 ^ 9 ∧ op2 < 2 ^ 2 := by simpa [Fields.wellFormed, fitsUnsigned] using h
  rw [extractFields, regAt_of_field (r := rt), regAt_of_field (r := rn), unsignedAt_of_field (v := address),
    unsignedAt_of_field (v := op2)] <;> omega

theorem extractFields_encodeB (op : BitVec 6) {offset : Int} (h : (Fields.b offset).wellFormed = true) :
    extractFields (encodeB op offset) .B = .b offset := by
  have hw := encodeB_toNat op offset
  rw [extractFields, signedAt_of_residue (by decide) _ h]
  omega

/-- The extractor reads an instruction's own fields in its encoded word, where they fit their widths (R88). -/
theorem extractFields_encode {i : Instr} (h : i.wellFormed = true) :
    extractFields (encode i) i.mnemonic.format = i.fields := by
  cases i with
  | b => exact extractFields_encodeB _ h
  | and | add | orr | sub | lsr | lsl | asr | eor => exact extractFields_encodeR _ _ _ _ h
  | addi | subi => exact extractFields_encodeI _ _ _ h
  | cbz | cbnz => exact extractFields_encodeCB _ _ h
  | movz | movk => exact extractFields_encodeIM _ _ h
  | stur | ldur => exact extractFields_encodeD _ _ _ h
  | brk | nop => rfl

/-! Two words agree in a field when they agree in its bits, whichever way the field is read (R11). -/

theorem regAt_eq_iff {w w' : InstrWord} {lo : Nat} :
    regAt w lo = regAt w' lo ↔ w.toNat / 2 ^ lo % 32 = w'.toNat / 2 ^ lo % 32 := by
  rw [Fin.ext_iff, regAt_val, regAt_val]

theorem unsignedAt_eq_iff {w w' : InstrWord} {lo len : Nat} :
    unsignedAt w lo len = unsignedAt w' lo len ↔ w.toNat / 2 ^ lo % 2 ^ len = w'.toNat / 2 ^ lo % 2 ^ len := by
  rw [unsignedAt_eq, unsignedAt_eq]

theorem signedAt_eq_iff {w w' : InstrWord} {lo len : Nat} :
    signedAt w lo len = signedAt w' lo len ↔ w.toNat / 2 ^ lo % 2 ^ len = w'.toNat / 2 ^ lo % 2 ^ len := by
  refine ⟨fun h => ?_, fun h => by rw [signedAt, signedAt, slice_toNat, slice_toNat, h]⟩
  have hmod := congrArg (· % (2 : Int) ^ len) h
  simp only [signedAt, sext_emod, slice_toNat, Nat.mod_mod] at hmod
  exact Int.ofNat_inj.mp hmod

/-- In the formats with operands the fields and the fixed bits leave no bit of a word out, so together they determine it
(R63 to R68, R74). -/
theorem eq_of_high_of_extractFields_eq {w w' : InstrWord} {fmt : Format} (hbreak : fmt ≠ .BREAK) (hnop : fmt ≠ .NOP)
    (high : w.toNat / 2 ^ fmt.fixedFrom = w'.toNat / 2 ^ fmt.fixedFrom)
    (fields : extractFields w fmt = extractFields w' fmt) : w = w' := by
  apply BitVec.eq_of_toNat_eq
  cases fmt with
  | BREAK => exact absurd rfl hbreak
  | NOP => exact absurd rfl hnop
  | R | I | D | B | CB | IM | rawData =>
    simp only [extractFields, Fields.r.injEq, Fields.i.injEq, Fields.d.injEq, Fields.b.injEq, Fields.cb.injEq,
      Fields.im.injEq, Fields.rawData.injEq, regAt_eq_iff, unsignedAt_eq_iff, signedAt_eq_iff] at fields
    simp only [Format.fixedFrom] at high
    omega

/-! Encodings as disjunctions (R88). -/

/-- Words without a common bit, one of them below bit `k` and the other from there up, are joined as they are added. -/
theorem or_toNat_of_disjoint {x y : InstrWord} (k : Nat) (hx : x.toNat % 2 ^ k = 0) (hy : y.toNat < 2 ^ k) :
    (x ||| y).toNat = x.toNat + y.toNat := by
  obtain ⟨q, hq⟩ := Nat.dvd_of_mod_eq_zero hx
  rw [BitVec.toNat_or, hq, ← Nat.two_pow_add_eq_or_of_lt hy]

/-- Masking the low `k` bits of a widened number leaves the number modulo `2^k`. -/
theorem ofInt_and_lowMask_toNat {k : Nat} (hk : k ≤ 32) (v : Int) {mask : InstrWord} (hm : mask.toNat = 2 ^ k - 1) :
    (BitVec.ofInt 32 v &&& mask).toNat = (v % 2 ^ k).toNat := by
  have hdvd : (2 : Int) ^ k ∣ (2 ^ 32 : Nat) := by exact_mod_cast Nat.pow_dvd_pow 2 hk
  have hword : ((v % (2 ^ 32 : Nat)).toNat : Int) = v % (2 ^ 32 : Nat) :=
    Int.toNat_of_nonneg (Int.emod_nonneg v (by decide))
  rw [BitVec.toNat_and, hm, Nat.and_two_pow_sub_one_eq_mod, BitVec.toNat_ofInt, ← Int.emod_emod_of_dvd v hdvd, ← hword,
    ← Int.toNat_natCast (_ % 2 ^ k)]
  push_cast
  rfl

/-- A register number as a word. -/
theorem ofNat_register_toNat (r : RegIdx) : (BitVec.ofNat 32 r.val).toNat = r.val := by
  rw [BitVec.toNat_ofNat]
  omega

/-- A register number in its place from bit 5 up. -/
theorem register_shiftLeft_toNat (r : RegIdx) : (BitVec.ofNat 32 r.val <<< 5).toNat = r.val * 2 ^ 5 := by
  rw [BitVec.toNat_shiftLeft, ofNat_register_toNat, Nat.shiftLeft_eq]
  omega

/-- R88 writes ADDI's encoding as this disjunction. -/
theorem encode_addi_eq_or (rd rn : RegIdx) (imm : Int) :
    encode (.addi rd rn imm) =
      (0x91000000#32 ||| (BitVec.ofInt 32 imm &&& 0xFFF#32) <<< 10 ||| BitVec.ofNat 32 rn.val <<< 5 |||
        BitVec.ofNat 32 rd.val) := by
  have hi : ((BitVec.ofInt 32 imm &&& 0xFFF#32) <<< 10).toNat = (imm % 2 ^ 12).toNat * 2 ^ 10 := by
    rw [BitVec.toNat_shiftLeft, Nat.shiftLeft_eq, ofInt_and_lowMask_toNat (k := 12) (by decide) imm rfl]
    omega
  have hn := register_shiftLeft_toNat rn
  have hd := ofNat_register_toNat rd
  have hrow : (0x91000000#32).toNat = 580 * 2 ^ 22 := rfl
  have hop : (0b1001000100 : BitVec 10).toNat = 580 := rfl
  apply BitVec.eq_of_toNat_eq
  rw [encode, encodeI_toNat, hop]
  generalize (BitVec.ofInt 32 imm &&& 0xFFF#32) <<< 10 = immWord at hi ⊢
  generalize BitVec.ofNat 32 rn.val <<< 5 = rnWord at hn ⊢
  generalize BitVec.ofNat 32 rd.val = rdWord at hd ⊢
  have h22 := or_toNat_of_disjoint (x := 0x91000000#32) (y := immWord) 22 (by decide) (by omega)
  have h10 := or_toNat_of_disjoint (x := 0x91000000#32 ||| immWord) (y := rnWord) 10 (by omega) (by omega)
  rw [or_toNat_of_disjoint 5 (by omega) (by omega), h10, h22, hrow]
  omega

/-- R88 writes CBNZ's encoding as this disjunction. -/
theorem encode_cbnz_eq_or (rt : RegIdx) (offset : Int) :
    encode (.cbnz rt offset) =
      (0xB5000000#32 ||| (BitVec.ofInt 32 offset &&& 0x7FFFF#32) <<< 5 ||| BitVec.ofNat 32 rt.val) := by
  have ho : ((BitVec.ofInt 32 offset &&& 0x7FFFF#32) <<< 5).toNat = (offset % 2 ^ 19).toNat * 2 ^ 5 := by
    rw [BitVec.toNat_shiftLeft, Nat.shiftLeft_eq, ofInt_and_lowMask_toNat (k := 19) (by decide) offset rfl]
    omega
  have ht := ofNat_register_toNat rt
  have hrow : (0xB5000000#32).toNat = 181 * 2 ^ 24 := rfl
  have hop : (0b10110101 : BitVec 8).toNat = 181 := rfl
  apply BitVec.eq_of_toNat_eq
  rw [encode, encodeCB_toNat, hop]
  generalize (BitVec.ofInt 32 offset &&& 0x7FFFF#32) <<< 5 = offsetWord at ho ⊢
  generalize BitVec.ofNat 32 rt.val = rtWord at ht ⊢
  have h24 := or_toNat_of_disjoint (x := 0xB5000000#32) (y := offsetWord) 24 (by decide) (by omega)
  rw [or_toNat_of_disjoint 5 (by omega) (by omega), h24, hrow]
  omega

end Sys2Proof

namespace Sys2Proof.Machine

/-! Records, one case of the decoder's loop at a time (R81). -/

/-- A malformed entry has no word, no opcode field and no mnemonic, wherever it stands (R81). -/
theorem buildRecord_malformed (haltSeen : Bool) (i : Nat) (raw : String) :
    buildRecord haltSeen i (.malformed raw) =
      ⟨raw, 96 + 4 * i, none, none, none, if haltSeen then some .rawData else none, .none⟩ := rfl

/-- A word after a BREAK (R79, R83). -/
theorem buildRecord_rawData (i : Nat) (raw : String) (w : InstrWord) :
    buildRecord true i (.word raw w) =
      ⟨raw, 96 + 4 * i, some w, some 0, none, some .rawData, .rawData w.toInt⟩ := by
  rw [← signedAt_word]
  rfl

/-- A word with a row, before any BREAK (R81). -/
theorem buildRecord_of_classify {w : InstrWord} {mn : Mnemonic} (h : classify (opcodeOf w) = some (mn, mn.format))
    (i : Nat) (raw : String) :
    buildRecord false i (.word raw w) =
      ⟨raw, 96 + 4 * i, some w, some (opcodeOf w), some mn, some mn.format, extractFields w mn.format⟩ := by
  simp only [buildRecord, h]
  rfl

/-- A word of no row, before any BREAK (R81, R171). -/
theorem buildRecord_of_unclassified {w : InstrWord} (h : classify (opcodeOf w) = none) (i : Nat) (raw : String) :
    buildRecord false i (.word raw w) = ⟨raw, 96 + 4 * i, some w, some (opcodeOf w), none, none, .none⟩ := by
  simp only [buildRecord, h]
  rfl

/-- A word of no row, before any BREAK, is reported once (R171). -/
theorem decodeDiag_of_unclassified {w : InstrWord} (h : classify (opcodeOf w) = none) (i : Nat) (raw : String) :
    decodeDiag false i (.word raw w) = [⟨.invalidOpcode, i⟩] := by
  simp [decodeDiag, h]

/-- RAW-DATA is the format of every entry after a BREAK, malformed ones too, and of no other (R79, R83). -/
theorem buildRecord_format_rawData_iff (haltSeen : Bool) (i : Nat) (e : Entry) :
    (buildRecord haltSeen i e).format = some .rawData ↔ haltSeen = true := by
  cases e with
  | malformed raw => cases haltSeen <;> simp [buildRecord_malformed]
  | word raw w =>
    cases haltSeen with
    | true => simp [buildRecord_rawData]
    | false =>
      rcases classify_eq_none_or_some (opcodeOf w) with h | ⟨mn, h⟩
      · simp [buildRecord_of_unclassified h]
      · simp [buildRecord_of_classify h, format_ne_rawData]

/-- A record is BREAK where its word is, unless an earlier one was (R83). -/
theorem buildRecord_format_break_iff (haltSeen : Bool) (i : Nat) (e : Entry) :
    (buildRecord haltSeen i e).format = some .BREAK ↔
      haltSeen = false ∧ ∃ raw w, e = .word raw w ∧ (opcodeOf w).toNat = 2038 := by
  cases e with
  | malformed raw => cases haltSeen <;> simp [buildRecord_malformed]
  | word raw w =>
    cases haltSeen with
    | true => simp [buildRecord_rawData]
    | false =>
      rcases classify_eq_none_or_some (opcodeOf w) with h | ⟨mn, h⟩
      · simp [buildRecord_of_unclassified h, ← classify_eq_break_iff, h]
      · simp [buildRecord_of_classify h, ← classify_eq_break_iff, h, format_eq_break_iff]

/-! The decode pass, record by record (R81). -/

/-- `haltSeen` as it stands at entry `j` of a decode pass: as at its start, or a record built since was BREAK (R28, R81). -/
def haltSeenAt (haltSeen : Bool) (i : Nat) (es : List Entry) (j : Nat) : Bool :=
  haltSeen || ((decodeFrom haltSeen i es).take j).any (fun record => record.format == some .BREAK)

/-- Record `j` of a decode pass is built from entry `j` under the `haltSeen` of the records before it (R81). -/
theorem decodeFrom_getElem? (haltSeen : Bool) (i : Nat) (es : List Entry) (j : Nat) :
    (decodeFrom haltSeen i es)[j]? = es[j]?.map (buildRecord (haltSeenAt haltSeen i es j) (i + j)) := by
  induction es generalizing haltSeen i j with
  | nil => simp [decodeFrom]
  | cons e es ih =>
    cases j with
    | zero => simp [decodeFrom, haltSeenAt]
    | succ j => simp [decodeFrom, ih, haltSeenAt, haltSeenAfter, Bool.or_assoc, Nat.add_assoc, Nat.add_comm 1]

/-- At an entry of a whole image `haltSeen` says that an earlier record is BREAK (R28, R81). -/
theorem haltSeenAt_start_iff (entries : List Entry) (j : Nat) :
    haltSeenAt false 0 entries j = true ↔
      ∃ i < j, ∃ earlier, (decodeFrom false 0 entries)[i]? = some earlier ∧ earlier.format = some .BREAK := by
  simp only [haltSeenAt, Bool.false_or, List.any_eq_true, beq_iff_eq]
  constructor
  · rintro ⟨earlier, hmem, hbreak⟩
    obtain ⟨i, hi⟩ := List.mem_iff_getElem?.mp hmem
    rw [List.getElem?_take] at hi
    split_ifs at hi with hlt
    exact ⟨i, hlt, earlier, hi, hbreak⟩
  · rintro ⟨i, hlt, earlier, hi, hbreak⟩
    refine ⟨earlier, List.mem_iff_getElem?.mpr ⟨i, ?_⟩, hbreak⟩
    rw [List.getElem?_take_of_lt hlt, hi]

/-- At an entry of a whole image `haltSeen` is clear while no earlier record is BREAK (R28, R81). -/
theorem haltSeenAt_start_eq_false_iff (entries : List Entry) (j : Nat) :
    haltSeenAt false 0 entries j = false ↔
      ∀ i < j, ∀ earlier, (decodeFrom false 0 entries)[i]? = some earlier → earlier.format ≠ some .BREAK := by
  rw [← Bool.not_eq_true, haltSeenAt_start_iff]
  simp only [not_exists, not_and, ne_eq]

end Sys2Proof.Machine

/-! The statements. -/

namespace Sys2Proof.Proofs

open Sys2Proof Sys2Proof.Machine

/-- Settles O7: the encoded word is classified as the instruction's row, and the extractor reads its fields there. -/
theorem decodeOfEncodeIsTheInstruction : Obligations.DecodeOfEncodeIsTheInstruction := by
  intro i hi
  exact (decode_eq_ok_iff _ _).mpr ⟨classify_encode i, (extractFields_encode hi).symm⟩

/-- Settles O4: the decoder rejects a word of no row, and the listed ranges are what the rows leave. -/
theorem unclassifiedValuesAreTheListed : Obligations.UnclassifiedValuesAreTheListed := by
  intro w
  have hreject : decode w = .error (.invalidOpcode (opcodeOf w)) ↔ classify (opcodeOf w) = none := by
    rw [decode_eq_error_iff, and_iff_left rfl]
  rw [hreject]
  refine ⟨?_, fun hnone raw i => ?_⟩
  · rw [classify_eq_none_iff, opcodeOf_toNat_eq_div]
    exact outside_rows_iff_listed (by omega)
  · rw [buildRecord_of_unclassified hnone]
    exact ⟨decodeDiag_of_unclassified hnone i raw, rfl, rfl⟩

/-- Settles O5: both sides say that the opcode field lies in the row's interval. -/
theorem maskAndMatchSelectTheRow : Obligations.MaskAndMatchSelectTheRow := fun w mn => selects_iff_classify mn w

/-- Settles O6: registers and unsigned fields are residues, signed fields go by their top bit. -/
theorem fieldsAreTheSlicesOfTheWord : Obligations.FieldsAreTheSlicesOfTheWord := by
  intro w
  refine ⟨regAt w 0, regAt w 5, regAt w 16, ?_, regAt_val w 5, regAt_val w 16, ?_, ?_, ?_, ?_, ?_, ?_⟩
  · rw [regAt_val, Nat.pow_zero, Nat.div_one]
  · simp only [extractFields, unsignedAt_eq, Nat.reducePow]
  · rw [extractFields, signedAt_eq_sub_sign w 10 (by decide)]
  · rw [extractFields, signedAt_eq_sub_sign w 5 (by decide)]
  · simp only [extractFields, unsignedAt_eq, Nat.reducePow]
  · simp only [extractFields, unsignedAt_eq, Nat.reducePow]
  · rw [extractFields, signedAt_eq_sub_sign w 0 (by decide), Nat.pow_zero, Nat.div_one]

/-- Settles O8: a word and its re-encoding are of one row and carry the same fields. -/
theorem encodeOfDecodeIsTheWord : Obligations.EncodeOfDecodeIsTheWord := by
  intro w i hdec
  obtain ⟨hclass, hfields⟩ := (decode_eq_ok_iff w i).mp hdec
  have hword := (selects_iff_classify _ _).mpr hclass
  have hencoded := (selects_iff_classify _ _).mpr (classify_encode i)
  split_ifs with hfree
  · rcases hfree with rfl | rfl
    · exact (beq_iff_eq.mp hword).symm
    · exact (beq_iff_eq.mp hword).symm
  · obtain ⟨hnop, hbrk⟩ := not_or.mp hfree
    rw [← mnemonic_eq_nop_iff, ← format_eq_nop_iff] at hnop
    rw [← mnemonic_eq_break_iff, ← format_eq_break_iff] at hbrk
    rw [selects_iff_high] at hword hencoded
    exact eq_of_high_of_extractFields_eq hbrk hnop (hencoded.trans hword.symm)
      ((extractFields_encode (decode_wellFormed hdec)).trans hfields)

/-- Settles O9: the match bits by the classification of the encoded word, the two formulas by their values. -/
theorem encodingOrsFieldsIntoTheMatch : Obligations.EncodingOrsFieldsIntoTheMatch :=
  ⟨fun i => (selects_iff_classify _ _).mpr (classify_encode i), encode_addi_eq_or, encode_cbnz_eq_or⟩

/-- Settles O17, from the addresses of the whole image. -/
theorem recordAddressesCountFromNinetySix : Obligations.RecordAddressesCountFromNinetySix := by
  intro entries
  refine ⟨?_, fun i record h => (decodeFrom_address h).1⟩
  rw [← List.length_map Record.address, image_map_address, List.length_range']

/-- Settles O18: a record is built under `haltSeen`, which says whether an earlier record is BREAK. -/
theorem recordsAfterBreakAreRawData : Obligations.RecordsAfterBreakAreRawData := by
  intro entries j record h
  rw [decodeFrom_getElem?, Option.map_eq_some_iff] at h
  obtain ⟨e, he, rfl⟩ := h
  rw [← haltSeenAt_start_iff, ← haltSeenAt_start_eq_false_iff, buildRecord_format_rawData_iff,
    buildRecord_format_break_iff, he]
  refine ⟨Iff.rfl, fun hseen => ?_, ?_⟩
  · rw [hseen]
    cases e with
    | malformed raw => exact ⟨rfl, nofun⟩
    | word raw w =>
      rw [buildRecord_rawData]
      refine ⟨rfl, fun raw' w' hword => ?_⟩
      obtain ⟨-, rfl⟩ := Entry.word.inj (Option.some.inj hword)
      exact ⟨rfl, rfl⟩
  · simp only [Option.some.injEq]

/-- Settles O2, which is `sext_emod` at the four widths. -/
theorem signExtensionRoundTrips : Obligations.SignExtensionRoundTrips := fun w k _ => sext_emod k w.toNat

/-- Settles O3: the rows lie apart, so the classified values are as many as the rows' values together. -/
theorem classifierRowsAreDisjoint : Obligations.ClassifierRowsAreDisjoint := by
  have hsome : ((List.range 2048).filter (fun n => (classify (BitVec.ofNat 11 n)).isSome)).length = 72 :=
    classified_perm.length_eq
  have hsplit := List.length_eq_length_filter_add (l := List.range 2048) fun n => (classify (BitVec.ofNat 11 n)).isSome
  simp only [List.length_range, hsome, Option.not_isSome] at hsplit
  exact ⟨fun n _ => rows_of_value_length_le_one n, hsome, by omega⟩

/-- Settles O13: one lemma for each case of the loop, the decoder's answer read as the classifier's. -/
theorem entryBecomesItsRecord : Obligations.EntryBecomesItsRecord := by
  intro haltSeen i raw w
  refine ⟨buildRecord_malformed haltSeen i raw, buildRecord_rawData i raw w, fun j hj => ?_, fun e he => ?_⟩
  · obtain ⟨hclass, hfields⟩ := (decode_eq_ok_iff w j).mp hj
    rw [buildRecord_of_classify hclass, hfields]
  · exact buildRecord_of_unclassified ((decode_eq_error_iff w e).mp he).1 i raw

end Sys2Proof.Proofs

/-! PROOFS, the engine-cycle family (40_engine_cycle.md): the tests of the loop one by one, what becomes of the record at `pc`,
the engine's class of each record the decoder builds, and the memory snapshot. -/

/-! The loop's tests, in their order (R100, R179). -/

namespace Sys2Proof.Machine

/-- After the run has ended a step changes nothing (R186; log entry 4). -/
theorem step_of_ended {s : State} (phase : s.phase = .engine) (ended : Ended s) : step s = .next s := by
  simp only [step, coreStep, phase, engineStep, if_pos (show s.status ≠ .running from ended)]

/-- `halted` is tested before anything is fetched (R100, R179). -/
theorem step_of_halted {s : State} (phase : s.phase = .engine) (running : s.status = .running) (halted : s.halted = true) :
    step s = .next (s.stop .halted) := by
  simp only [step, coreStep, phase, engineStep, running, halted, ne_eq, not_true_eq_false, if_false, if_true]

/-- In the loop, an index outside the image stops the run (R108). -/
theorem step_of_fetch_none {s : State} (active : Active s) (outside : fetch s = none) :
    step s = .next (s.stop .outOfBounds) := by
  obtain ⟨phase, running, halted⟩ := active
  simp [step, coreStep, phase, engineStep, running, halted, outside]

/-- In the loop, an index inside the image hands its record on (R100). -/
theorem step_of_fetch {s : State} {record : Record} (active : Active s) (fetched : fetch s = some record) :
    step s = runRecord record s := by
  obtain ⟨phase, running, halted⟩ := active
  simp [step, coreStep, phase, engineStep, running, halted, fetched]

/-- Nothing is fetched exactly outside `0..n-1` (R101, R108). -/
theorem fetch_eq_none_iff (s : State) : fetch s = none ↔ s.pc < 0 ∨ (s.image.length : Int) ≤ s.pc := by
  unfold fetch
  split_ifs with nonneg
  · rw [List.getElem?_eq_none_iff]
    omega
  · exact ⟨fun _ => .inl (not_le.mp nonneg), fun _ => rfl⟩

/-- In the loop at an index of the image, the step is what becomes of the record there (R100, R101). -/
theorem step_of_record {s : State} {record : Record} (active : Active s) (nonneg : 0 ≤ s.pc)
    (at_pc : s.image[s.pc.toNat]? = some record) : step s = runRecord record s :=
  step_of_fetch active ((if_pos nonneg).trans at_pc)

/-! What becomes of a record (R100, R104, R105). -/

theorem dataStops_iff (s : State) (record : Record) :
    dataStops s record = true ↔ record.format = some .rawData ∧ s.params.dataExec = .fault := by
  simp only [dataStops, Bool.and_eq_true, beq_iff_eq]

/-- A record without an instruction is skipped (R104). -/
theorem runRecord_of_none {record : Record} (h : engineInstr record = none) (s : State) :
    runRecord record s = .next (skipRecord s) := by
  simp only [runRecord, h]

/-- Data is stopped on where `DATA_EXEC` says so, whatever its instruction (R105). -/
theorem runRecord_of_dataStops {record : Record} {i : Instr} {s : State} (h : engineInstr record = some i)
    (stops : dataStops s record = true) : runRecord record s = .next (s.stop (.faulted .dataExecuted)) := by
  simp only [runRecord, h, if_pos stops]

/-- Otherwise a record with an instruction is performed (R103). -/
theorem runRecord_of_not_dataStops {record : Record} {i : Instr} {s : State} (h : engineInstr record = some i)
    (runs : ¬dataStops s record = true) : runRecord record s = exec i s := by
  simp only [runRecord, h, if_neg runs]

/-- A stop leaves all but the status (R105). -/
theorem stoppedAs_stop (s : State) (st : Status) : StoppedAs st s (s.stop st) :=
  ⟨rfl, ⟨rfl, rfl, rfl, rfl, rfl, rfl⟩, fun _ => rfl, fun _ => rfl, rfl, rfl, rfl, rfl, rfl⟩

/-- A skip moves `pc` on and reports the index, and leaves everything else (R104). -/
theorem skippedTo_skipRecord (s : State) : SkippedTo s (skipRecord s) :=
  ⟨rfl, rfl, rfl, rfl, rfl, rfl, fun _ => rfl, fun _ => rfl, ⟨rfl, rfl, rfl, rfl, rfl, rfl⟩⟩

/-! The effects, by what they do to the status (R105, R106). -/

/-- The five rows whose meaning `INCOMPLETE_OPS` decides (R105, decision D6). -/
theorem exec_eq_incompleteOp {i : Instr} (row : i.mnemonic ∈ [Mnemonic.LSR, .LSL, .ASR, .MOVZ, .MOVK]) (s : State) :
    exec i s = .next (incompleteOp i s) := by
  cases i with
  | lsr | lsl | asr | movz | movk => rfl
  | b | and | add | addi | orr | cbz | cbnz | sub | subi | eor | stur | ldur | brk | nop =>
    simp [Instr.mnemonic] at row

/-- Under `INCOMPLETE_OPS = tracedOnly` every instruction retires and the status stays (R105, R106). -/
theorem exec_tracedOnly {s : State} (i : Instr) (traced : s.params.incompleteOps = .tracedOnly) :
    ∃ t, exec i s = .next t ∧ t.status = s.status ∧ t.cycle = s.cycle + 1 := by
  obtain ⟨t, ran, ⟨u, npc, effect, rfl⟩ | ⟨refuse, -⟩⟩ := exec_cases i s
  · exact ⟨_, ran, effect.status_eq, congrArg (· + 1) effect.cycle_eq⟩
  · exact nomatch traced.symm.trans refuse

/-- A record at an index of the image ends the run, if at all, by one of the two policy stops (R105, R108). -/
theorem runRecord_status (record : Record) (s : State) :
    ∃ t, runRecord record s = .next t ∧
      (t.status = s.status ∨ t.status = .faulted .dataExecuted ∨ ∃ mn, t.status = .refused mn) := by
  cases instr : engineInstr record with
  | none => exact ⟨_, runRecord_of_none instr s, .inl rfl⟩
  | some i =>
    by_cases stops : dataStops s record = true
    · exact ⟨_, runRecord_of_dataStops instr stops, .inr (.inl rfl)⟩
    · rw [runRecord_of_not_dataStops instr stops]
      obtain ⟨t, ran, ⟨u, npc, effect, rfl⟩ | ⟨-, rfl⟩⟩ := exec_cases i s
      · exact ⟨_, ran, .inl effect.status_eq⟩
      · exact ⟨_, ran, .inr (.inr ⟨_, rfl⟩)⟩

/-- BREAK sets `halted` and retires (R107, R162). -/
theorem exec_brk (s : State) : exec .brk s = .next (s.halt.retire .brk (nextIndex s)) := rfl

/-! The engine's class of the records the decoder builds (R102). -/

/-- A record without a class has no instruction. -/
theorem engineInstr_of_unclassified {record : Record} (h : engineClass record = none) : engineInstr record = none := by
  rw [engineInstr, h, Option.bind_none]

theorem engineClass_of_decode {w : InstrWord} {i : Instr} (h : decode w = .ok i) (index : Nat) (raw : String) :
    engineClass (buildRecord false index (.word raw w)) = some (i.mnemonic, i.mnemonic.format) := by
  obtain ⟨hclass, -⟩ := (decode_eq_ok_iff w i).mp h
  rw [buildRecord_of_classify hclass]
  exact hclass

/-- The engine performs what the decoder read: the record carries the instruction's own fields (R71, R102). -/
theorem engineInstr_of_decode {w : InstrWord} {i : Instr} (h : decode w = .ok i) (index : Nat) (raw : String) :
    engineInstr (buildRecord false index (.word raw w)) = some i := by
  obtain ⟨hclass, hfields⟩ := (decode_eq_ok_iff w i).mp h
  rw [engineInstr, engineClass_of_decode h, Option.bind_some, buildRecord_of_classify hclass, ← hfields]
  exact assemble_fields i

theorem engineClass_of_decode_error {w : InstrWord} {e : DecodeError} (h : decode w = .error e) (index : Nat)
    (raw : String) : engineClass (buildRecord false index (.word raw w)) = none := by
  obtain ⟨hnone, -⟩ := (decode_eq_error_iff w e).mp h
  rw [buildRecord_of_unclassified hnone]
  exact hnone

/-- The opcode field 0 of a RAW-DATA word is NOP's (R79, R102). -/
theorem engineClass_rawData (index : Nat) (raw : String) (w : InstrWord) :
    engineClass (buildRecord true index (.word raw w)) = some (.NOP, .NOP) := by
  rw [buildRecord_rawData]
  exact (classify_eq_some_iff 0 .NOP).mpr (by decide)

/-- NOP reads no field, so the literal of a RAW-DATA record does not keep it from running (R163). -/
theorem engineInstr_rawData (index : Nat) (raw : String) (w : InstrWord) :
    engineInstr (buildRecord true index (.word raw w)) = some .nop := by
  rw [engineInstr, engineClass_rawData]
  rfl

theorem engineClass_malformed (haltSeen : Bool) (index : Nat) (raw : String) :
    engineClass (buildRecord haltSeen index (.malformed raw)) = none := rfl

/-- BREAK's opcode-field value decodes to BREAK (R72). -/
theorem decode_eq_brk {w : InstrWord} (h : (opcodeOf w).toNat = 2038) : decode w = .ok .brk :=
  (decode_eq_ok_iff w .brk).mpr ⟨(classify_eq_break_iff _).mpr h, rfl⟩

/-- A record before any BREAK whose word decodes is no data, so no policy stops on it: its instruction is performed (R103). -/
theorem step_of_decode {s : State} {index : Nat} {raw : String} {w : InstrWord} {i : Instr} (active : Active s)
    (nonneg : 0 ≤ s.pc) (at_pc : s.image[s.pc.toNat]? = some (buildRecord false index (.word raw w)))
    (decoded : decode w = .ok i) : step s = exec i s := by
  rw [step_of_record active nonneg at_pc]
  refine runRecord_of_not_dataStops (engineInstr_of_decode decoded index raw) fun stops => ?_
  obtain ⟨data, -⟩ := (dataStops_iff _ _).mp stops
  exact Bool.false_ne_true ((buildRecord_format_rawData_iff _ _ _).mp data)

/-! The memory snapshot (R110, R112). -/

/-- No key has a bank exactly when memory lists none (R31). -/
theorem slots_none_iff (s : State) : (∀ key, s.slots key = none) ↔ s.mem = [] := by
  rw [← bankAt_none_iff_nil]
  simp only [State.slots, Option.map_eq_none_iff]
  exact ⟨fun h a => by simpa only [BitVec.ofInt_toInt] using h a.toInt, fun h key => h _⟩

theorem memorySnapshot_eq_none_iff (s : State) : memorySnapshot s = none ↔ s.mem = [] := by
  simp [memorySnapshot]

/-- A snapshot has one row for each listed bank, in the order of the list (R112). -/
theorem memorySnapshot_rows {s : State} {rows : List (Int × Vector Int 8)} (h : memorySnapshot s = some rows) :
    rows = s.mem.map fun p => (p.1.toInt, signedValues p.2) := by
  unfold memorySnapshot at h
  split at h
  · exact nomatch h
  · exact (Option.some.inj h).symm

/-- In canonical memory the slots of a key are those of the bank listed under it (R31). -/
theorem slots_eq_some_iff {s : State} (hm : Memory.wf s.mem) (key : Int) (slots : Vector Int 8) :
    s.slots key = some slots ↔ ∃ b, (BitVec.ofInt s.params.width key, b) ∈ s.mem ∧ signedValues b = slots := by
  simp only [State.slots, Option.map_eq_some_iff, bankAt_eq_some_iff hm]

end Sys2Proof.Machine

/-! The statements. -/

namespace Sys2Proof.Proofs

open Sys2Proof Sys2Proof.Machine

/-- Settles O22: the first part is what the class is, the others are the decoder's records case by case. -/
theorem engineClassAgreesWithTheDecoder : Obligations.EngineClassAgreesWithTheDecoder := by
  refine ⟨fun _ => rfl, fun haltSeen i raw w => ⟨fun j hj => ?_, fun e he => engineClass_of_decode_error he i raw,
    engineClass_rawData i raw w, engineInstr_rawData i raw w, engineClass_malformed haltSeen i raw⟩⟩
  refine ⟨engineClass_of_decode hj i raw, ?_, engineInstr_of_decode hj i raw⟩
  obtain ⟨hclass, -⟩ := (decode_eq_ok_iff w j).mp hj
  rw [buildRecord_of_classify hclass]

/-- Settles O25: the data stop comes before the instruction, the other is the meaning of the five rows, and without either
every instruction retires. -/
theorem policyStopsChangeOnlyTheStatus : Obligations.PolicyStopsChangeOnlyTheStatus := by
  intro s record i active nonneg at_pc instr
  rw [step_of_record active nonneg at_pc]
  refine ⟨fun data fault => ?_, fun noStop refuse row => ?_, fun asNop traced => ?_⟩
  · exact ⟨_, runRecord_of_dataStops instr ((dataStops_iff s record).mpr ⟨data, fault⟩), stoppedAs_stop s _⟩
  · rw [← dataStops_iff] at noStop
    rw [runRecord_of_not_dataStops instr noStop, exec_eq_incompleteOp row, incompleteOp_refuse s i refuse]
    exact ⟨_, rfl, stoppedAs_stop s _⟩
  · have noStop : ¬dataStops s record = true := by simp [dataStops_iff, asNop]
    obtain ⟨-, running, -⟩ := active
    rw [runRecord_of_not_dataStops instr noStop, ← running]
    exact exec_tracedOnly i traced

/-- Settles O26: one lemma for each test of the loop, and a record reached ends the run by a policy stop only. -/
theorem loopTestsDecideTheTerminalStatus : Obligations.LoopTestsDecideTheTerminalStatus := by
  intro s phase running
  refine ⟨fun halted => ⟨_, step_of_halted phase running halted, stoppedAs_stop s _⟩,
    fun notHalted outside => ⟨_, step_of_fetch_none ⟨phase, running, notHalted⟩ ((fetch_eq_none_iff s).mpr outside),
      stoppedAs_stop s _⟩, fun notHalted nonneg below => ?_⟩
  have inside : fetch s ≠ none := by
    rw [Ne, fetch_eq_none_iff]
    omega
  obtain ⟨record, fetched⟩ := Option.ne_none_iff_exists'.mp inside
  obtain ⟨t, ran, status⟩ := runRecord_status record s
  refine ⟨t, (step_of_fetch ⟨phase, running, notHalted⟩ fetched).trans ran, ?_⟩
  rcases status with same | data | ⟨mn, refused⟩
  · simp [same, running]
  · simp [data]
  · simp [refused]

/-- Settles O27: the first step retires BREAK and sets `halted`, the second finds `halted` and stops. -/
theorem breakEndsTheRunOneStepLater : Obligations.BreakEndsTheRunOneStepLater := by
  intro s index raw w active nonneg at_pc hbreak
  have first : step s = .next (s.halt.retire .brk (nextIndex s)) :=
    (step_of_decode active nonneg at_pc (decode_eq_brk hbreak)).trans (exec_brk s)
  obtain ⟨phase, running, -⟩ := active
  have second := step_of_halted (s := s.halt.retire .brk (nextIndex s)) phase running rfl
  refine ⟨_, steps_succ.mpr ⟨_, first, steps_succ.mpr ⟨_, second, steps_zero.mpr rfl⟩⟩, ?_⟩
  exact ⟨rfl, rfl, rfl, rfl, ⟨_, rfl, rfl, rfl, rfl⟩, fun _ => rfl, fun _ => rfl, rfl, rfl, rfl, rfl, rfl, rfl⟩

/-- Settles O49: the rows are the listed banks in order, and canonical memory lists each existing bank under its key. -/
theorem memorySnapshotListsTheBanks : Obligations.MemorySnapshotListsTheBanks := by
  intro s hm
  refine ⟨(memorySnapshot_eq_none_iff s).trans (slots_none_iff s).symm, fun rows hrows => ?_⟩
  rw [memorySnapshot_rows hrows]
  refine ⟨List.pairwise_map.mpr hm, fun row hrow => ?_, fun key slots hslots => ?_⟩
  · obtain ⟨⟨k, b⟩, hmem, rfl⟩ := List.mem_map.mp hrow
    refine (slots_eq_some_iff hm _ _).mpr ⟨b, ?_, rfl⟩
    rwa [BitVec.ofInt_toInt]
  · obtain ⟨b, hmem, rfl⟩ := (slots_eq_some_iff hm key slots).mp hslots
    refine List.mem_map.mpr ⟨_, hmem, ?_⟩
    rw [BitVec.toInt_ofInt]
    rfl

/-- Settles O21: the engine's instruction of the record is the decoder's, and no policy stops on it. -/
theorem stepRunsTheDecodedInstruction : Obligations.StepRunsTheDecodedInstruction :=
  fun _ _ _ _ _ active nonneg at_pc decoded => step_of_decode active nonneg at_pc decoded

/-- Settles O23: a record without a class has no instruction, and such a record is skipped. -/
theorem unclassifiedRecordIsSkipped : Obligations.UnclassifiedRecordIsSkipped := by
  intro s record active nonneg at_pc unclassified
  rw [step_of_record active nonneg at_pc, runRecord_of_none (engineInstr_of_unclassified unclassified)]
  exact ⟨_, rfl, skippedTo_skipRecord s⟩

/-- Settles O28, by induction on the number of steps. -/
theorem finalStateStays : Obligations.FinalStateStays := by
  intro s phase ended k
  induction k with
  | zero => exact steps_zero.mpr rfl
  | succ k ih => exact steps_succ.mpr ⟨s, step_of_ended phase ended, ih⟩

end Sys2Proof.Proofs

/-! PROOFS, the B-format family (41_b_format.md): decoding by a row's mask and match, what an instruction does whose only effect
is its retirement, and the branch. -/

/-! Decoding by mask and match (R74, R81). -/

namespace Sys2Proof

/-- A word with the fixed bits of an instruction's row, and with its operands in the fields of the row's format, decodes to that
instruction. -/
theorem decode_of_rowPattern {w : InstrWord} {i : Instr} (row : w &&& (rowPattern i.mnemonic).2 = (rowPattern i.mnemonic).1)
    (fields : i.fields = extractFields w i.mnemonic.format) : decode w = .ok i :=
  (decode_eq_ok_iff w i).mpr ⟨(selects_iff_classify i.mnemonic w).mp (beq_iff_eq.mpr row), fields⟩

/-- `decode_of_rowPattern`, for a word the host names by its bits. -/
theorem decodeTableWord_of_rowPattern {nbits n : Nat} {i : Instr}
    (row : tableWord nbits n &&& (rowPattern i.mnemonic).2 = (rowPattern i.mnemonic).1)
    (fields : i.fields = extractFields (tableWord nbits n) i.mnemonic.format) : decodeTableWord nbits n = some i := by
  rw [decodeTableWord, decode?, decode_of_rowPattern row fields]
  rfl

/-- A word the host names whose opcode field is unclassified is no instruction (R75). -/
theorem decodeTableWord_of_unclassified {nbits n : Nat} (h : classify (opcodeOf (tableWord nbits n)) = none) :
    decodeTableWord nbits n = none := by
  rw [decodeTableWord, decode?, (decode_eq_error_iff _ _).mpr ⟨h, rfl⟩]
  rfl

end Sys2Proof

/-! Retirement as the only effect (R106, R121). -/

namespace Sys2Proof.Machine

/-- A state that leaves the loop's tests and the image as they were is still in the loop, so an index outside the image stops
the run there (R108). -/
theorem outOfBoundsNext_of_frame {s t : State} (control : SameControl s t) (program : SameProgram s t) :
    OutOfBoundsNext s t := by
  intro active outside
  obtain ⟨phase, running, notHalted⟩ := active
  obtain ⟨halted_eq, status_eq, -⟩ := control
  obtain ⟨-, -, phase_eq, -, -, image_eq⟩ := program
  have stillActive : Active t := ⟨phase_eq.trans phase, status_eq.trans running, halted_eq.trans notHalted⟩
  rw [← image_eq, ← fetch_eq_none_iff] at outside
  exact ⟨_, step_of_fetch_none stillActive outside, stoppedAs_stop t _⟩

/-- Retiring moves `pc` and `cycle` on and emits the event; the rest of the state stays (R106, R110). -/
theorem retire_frame (i : Instr) (npc : Int) (s : State) :
    RetiredTo i npc s (s.retire i npc) ∧ SameRegs s (s.retire i npc) ∧ SameMemory s (s.retire i npc) ∧
      SameControl s (s.retire i npc) ∧ SameProgram s (s.retire i npc) ∧ OutOfBoundsNext s (s.retire i npc) := by
  have control : SameControl s (s.retire i npc) := ⟨rfl, rfl, rfl⟩
  have program : SameProgram s (s.retire i npc) := ⟨rfl, rfl, rfl, rfl, rfl, rfl⟩
  exact ⟨retire_retiredTo i npc rfl rfl rfl, fun r => regVal_retire s i npc r, fun key => slots_retire s i npc key,
    control, program, outOfBoundsNext_of_frame control program⟩

/-- B retires with `pc + offset` as the next index, whatever the offset, and does nothing else (R121). -/
theorem exec_b (offset : Int) (s : State) : exec (.b offset) s = .next (s.retire (.b offset) (s.pc + offset)) := rfl

end Sys2Proof.Machine

/-! The statements. -/

namespace Sys2Proof.Proofs

open Sys2Proof Sys2Proof.Machine

/-- Settles O30: B's row and its one field give the decoding, and B does nothing but retire. -/
theorem branchGoesToItsOffset : Obligations.BranchGoesToItsOffset :=
  ⟨fun _ row => decode_of_rowPattern row rfl, fun offset s => ⟨rfl, _, exec_b offset s, retire_frame _ _ s⟩⟩

/-- Settles O10: each word has its row's fixed bits and its operands in the row's fields, and the last one is of no row. -/
theorem specWordsDecodeAsWritten : Obligations.SpecWordsDecodeAsWritten := by
  refine ⟨?b, ?add, ?addi, ?cbz, ?movz, ?ldur, ?stur, ?brk, ?nop, ?rejected⟩
  case rejected => exact decodeTableWord_of_unclassified (by decide)
  all_goals exact decodeTableWord_of_rowPattern (by decide) (by decide)

end Sys2Proof.Proofs

/-! PROOFS, the R-format family (42_r_format.md): a register written and then retired, the five ALU rows, and the shifts as
rows that `INCOMPLETE_OPS` decides. -/

/-! One register written, then retirement (R106, R125). -/

namespace Sys2Proof.Machine

/-- Writing one register and retiring leaves the other registers and the rest of the state; the event shows the registers after
the write (R103, R106, R110). -/
theorem setReg_retire_frame (i : Instr) (npc : Int) (rd : RegIdx) (s : State) (v : BitVec s.params.width) :
    SameRegsBut rd s ((s.setReg rd v).retire i npc) ∧ SameMemory s ((s.setReg rd v).retire i npc) ∧
      SameControl s ((s.setReg rd v).retire i npc) ∧ SameProgram s ((s.setReg rd v).retire i npc) ∧
      RetiredTo i npc s ((s.setReg rd v).retire i npc) := by
  obtain ⟨-, regs, memory, control, program, -⟩ := retire_frame i npc (s.setReg rd v)
  exact ⟨fun r other => (regs r).trans (regVal_setReg_other s v other), memory, control, program,
    retire_retiredTo i npc rfl rfl rfl⟩

/-- The register an ALU row writes reads as the result (R125). -/
theorem reg_aluWrite (i : Instr) (rd : RegIdx) (s : State) (v : BitVec s.params.width) : (aluWrite i rd s v).reg rd = v :=
  reg_setReg_same s rd v

/-- The signed value of the register an ALU row writes is the result's (R12, R125). -/
theorem regVal_aluWrite (i : Instr) (rd : RegIdx) (s : State) (v : BitVec s.params.width) :
    (aluWrite i rd s v).regVal rd = v.toInt := regVal_setReg_same s rd v

/-- An ALU row leaves everything but its destination, and retires at the next index (R125). -/
theorem aluWrite_frame (i : Instr) (rd : RegIdx) (s : State) (v : BitVec s.params.width) :
    SameRegsBut rd s (aluWrite i rd s v) ∧ SameMemory s (aluWrite i rd s v) ∧ SameControl s (aluWrite i rd s v) ∧
      SameProgram s (aluWrite i rd s v) ∧ RetiredTo i (s.pc + 1) s (aluWrite i rd s v) :=
  setReg_retire_frame i (nextIndex s) rd s v

/-! The result of each ALU row, from the registers before the write (R126 to R130). -/

theorem exec_and (rd rn rm : RegIdx) (shamt : Nat) (s : State) :
    exec (.and rd rn rm shamt) s = .next (aluWrite (.and rd rn rm shamt) rd s (s.reg rn &&& s.reg rm)) := rfl

theorem exec_add (rd rn rm : RegIdx) (shamt : Nat) (s : State) :
    exec (.add rd rn rm shamt) s = .next (aluWrite (.add rd rn rm shamt) rd s (s.reg rn + s.reg rm)) := rfl

theorem exec_orr (rd rn rm : RegIdx) (shamt : Nat) (s : State) :
    exec (.orr rd rn rm shamt) s = .next (aluWrite (.orr rd rn rm shamt) rd s (s.reg rn ||| s.reg rm)) := rfl

theorem exec_sub (rd rn rm : RegIdx) (shamt : Nat) (s : State) :
    exec (.sub rd rn rm shamt) s = .next (aluWrite (.sub rd rn rm shamt) rd s (s.reg rm - s.reg rn)) := rfl

theorem exec_eor (rd rn rm : RegIdx) (shamt : Nat) (s : State) :
    exec (.eor rd rn rm shamt) s = .next (aluWrite (.eor rd rn rm shamt) rd s (s.reg rn ^^^ s.reg rm)) := rfl

/-! The rows that `INCOMPLETE_OPS` decides (R105, decision D6). -/

/-- Under `tracedOnly` such a row retires at the next index, and nothing else changes (R131 to R133, R151, R152). -/
theorem exec_incomplete_of_tracedOnly {i : Instr} (row : i.mnemonic ∈ [Mnemonic.LSR, .LSL, .ASR, .MOVZ, .MOVK]) {s : State}
    (traced : s.params.incompleteOps = .tracedOnly) :
    ∃ t, exec i s = .next t ∧ RetiredTo i (s.pc + 1) s t ∧ SameRegs s t ∧ SameMemory s t ∧ SameControl s t ∧
      SameProgram s t := by
  obtain ⟨retired, regs, memory, control, program, -⟩ := retire_frame i (nextIndex s) s
  rw [exec_eq_incompleteOp row, incompleteOp_tracedOnly s i traced]
  exact ⟨_, rfl, retired, regs, memory, control, program⟩

/-- Under `refuse` such a row stops the run as `Refused` of its own mnemonic (R105). -/
theorem exec_incomplete_of_refuse {i : Instr} (row : i.mnemonic ∈ [Mnemonic.LSR, .LSL, .ASR, .MOVZ, .MOVK]) {s : State}
    (refuse : s.params.incompleteOps = .refuse) : ∃ t, exec i s = .next t ∧ StoppedAs (.refused i.mnemonic) s t := by
  rw [exec_eq_incompleteOp row, incompleteOp_refuse s i refuse]
  exact ⟨_, rfl, stoppedAs_stop s _⟩

end Sys2Proof.Machine

/-! The statements. -/

namespace Sys2Proof.Proofs

open Sys2Proof Sys2Proof.Machine

/-- Settles O31: the destination holds the AND of the two words, whose bits are those of the operands. -/
theorem andWritesTheBitwiseAnd : Obligations.AndWritesTheBitwiseAnd := by
  refine ⟨fun _ row => decode_of_rowPattern row rfl, fun rd rn rm shamt s =>
    ⟨rfl, _, exec_and rd rn rm shamt s, fun k => ?_, aluWrite_frame _ rd s _⟩⟩
  rw [reg_aluWrite]
  exact BitVec.getLsbD_and

/-- Settles O32: addition of words is addition of their signed values, reduced. -/
theorem addWritesTheSum : Obligations.AddWritesTheSum := by
  refine ⟨fun _ row => decode_of_rowPattern row rfl, fun rd rn rm shamt s =>
    ⟨rfl, _, exec_add rd rn rm shamt s, ?_, aluWrite_frame _ rd s _⟩⟩
  rw [regVal_aluWrite]
  exact BitVec.toInt_add _ _

/-- Settles O33: the destination holds the OR of the two words, whose bits are those of the operands. -/
theorem orrWritesTheBitwiseOr : Obligations.OrrWritesTheBitwiseOr := by
  refine ⟨fun _ row => decode_of_rowPattern row rfl, fun rd rn rm shamt s =>
    ⟨rfl, _, exec_orr rd rn rm shamt s, fun k => ?_, aluWrite_frame _ rd s _⟩⟩
  rw [reg_aluWrite]
  exact BitVec.getLsbD_or

/-- Settles O34: subtraction of words is subtraction of their signed values, reduced; `rm` is the minuend. -/
theorem subWritesSecondMinusFirst : Obligations.SubWritesSecondMinusFirst := by
  refine ⟨fun _ row => decode_of_rowPattern row rfl, fun rd rn rm shamt s =>
    ⟨rfl, _, exec_sub rd rn rm shamt s, ?_, aluWrite_frame _ rd s _⟩⟩
  rw [regVal_aluWrite]
  exact BitVec.toInt_sub

/-- Settles O35: the destination holds the XOR of the two words, whose bits are those of the operands. -/
theorem eorWritesTheBitwiseExclusiveOr : Obligations.EorWritesTheBitwiseExclusiveOr := by
  refine ⟨fun _ row => decode_of_rowPattern row rfl, fun rd rn rm shamt s =>
    ⟨rfl, _, exec_eor rd rn rm shamt s, fun k => ?_, aluWrite_frame _ rd s _⟩⟩
  rw [reg_aluWrite]
  exact BitVec.getLsbD_xor

/-- Settles O36: the three shifts share their operand text, and `INCOMPLETE_OPS` decides the meaning of each. -/
theorem shiftsAreTracedOnlyOrRefused : Obligations.ShiftsAreTracedOnlyOrRefused := by
  refine ⟨fun w => ⟨fun row => decode_of_rowPattern row rfl, fun row => decode_of_rowPattern row rfl,
    fun row => decode_of_rowPattern row rfl⟩, fun rd rn rm shamt s i shift => ?_⟩
  have text : operandText i = shiftText rd rn shamt := by
    fin_cases shift <;> rfl
  have row : i.mnemonic ∈ [Mnemonic.LSR, .LSL, .ASR, .MOVZ, .MOVK] := by
    fin_cases shift <;> simp [Instr.mnemonic]
  exact ⟨text, exec_incomplete_of_tracedOnly row, exec_incomplete_of_refuse row⟩

end Sys2Proof.Proofs

/-! PROOFS, the I-format family (43_i_format.md): arithmetic with a widened immediate, and the two rows, which write their
destination as the ALU rows do. -/

/-! Arithmetic with a widened immediate, in signed numbers (R12, R85). -/

namespace Sys2Proof.Machine

/-- The widening may drop high bits of the immediate; they are lost again when the sum is reduced (R141). -/
theorem toInt_add_widen {width : Nat} (x : BitVec width) (imm : Int) :
    (x + widen width imm).toInt = (x.toInt + imm).bmod (2 ^ width) := by
  rw [BitVec.toInt_add, widen, BitVec.toInt_ofInt, Int.add_bmod_bmod]

/-- The same for the difference, with the immediate as the subtrahend (R142). -/
theorem toInt_sub_widen {width : Nat} (x : BitVec width) (imm : Int) :
    (x - widen width imm).toInt = (x.toInt - imm).bmod (2 ^ width) := by
  rw [BitVec.toInt_sub, widen, BitVec.toInt_ofInt, Int.sub_bmod_bmod]

/-! The result of each row, from the register before the write (R141, R142). -/

theorem exec_addi (rd rn : RegIdx) (imm : Int) (s : State) :
    exec (.addi rd rn imm) s = .next (aluWrite (.addi rd rn imm) rd s (s.reg rn + widen s.params.width imm)) := rfl

theorem exec_subi (rd rn : RegIdx) (imm : Int) (s : State) :
    exec (.subi rd rn imm) s = .next (aluWrite (.subi rd rn imm) rd s (s.reg rn - widen s.params.width imm)) := rfl

end Sys2Proof.Machine

/-! The statements. -/

namespace Sys2Proof.Proofs

open Sys2Proof Sys2Proof.Machine

/-- Settles O37: ADDI is an ALU write of the sum of the register and the widened immediate. -/
theorem addiWritesTheSumWithTheImmediate : Obligations.AddiWritesTheSumWithTheImmediate := by
  refine ⟨fun _ row => decode_of_rowPattern row rfl, fun rd rn imm s =>
    ⟨rfl, _, exec_addi rd rn imm s, ?_, aluWrite_frame _ rd s _⟩⟩
  rw [regVal_aluWrite]
  exact toInt_add_widen _ imm

/-- Settles O38: SUBI is an ALU write of the difference, with the widened immediate subtracted from the register. -/
theorem subiWritesTheDifferenceWithTheImmediate : Obligations.SubiWritesTheDifferenceWithTheImmediate := by
  refine ⟨fun _ row => decode_of_rowPattern row rfl, fun rd rn imm s =>
    ⟨rfl, _, exec_subi rd rn imm s, ?_, aluWrite_frame _ rd s _⟩⟩
  rw [regVal_aluWrite]
  exact toInt_sub_widen _ imm

end Sys2Proof.Proofs

/-! PROOFS, the CB-format family (44_cb_format.md): the test of a whole register against zero, the next index it selects, and the
two conditional branches, which do nothing but retire there. -/

/-! The one condition and the next index (R145). -/

namespace Sys2Proof.Machine

/-- A word is zero exactly when its signed value is, at every width, so the test is one of the whole register (R12, R145). -/
theorem regIsZero_iff (s : State) (rt : RegIdx) : regIsZero s rt = true ↔ s.regVal rt = 0 := by
  rw [regIsZero, beq_iff_eq, State.regVal, BitVec.ofNat_eq_ofNat, ← BitVec.toInt_inj, BitVec.toInt_zero]

/-- A conditional branch goes to `pc + offset` where its condition holds, and to the next record otherwise (R145). -/
theorem branchIf_of_iff {taken : Bool} {p : Prop} [Decidable p] (h : taken = true ↔ p) (s : State) (offset : Int) :
    branchIf taken s offset = if p then s.pc + offset else s.pc + 1 := if_congr h rfl rfl

/-! Each row as a retirement at the index it selects (R146, R147). -/

theorem exec_cbz (rt : RegIdx) (offset : Int) (s : State) :
    exec (.cbz rt offset) s =
      .next (s.retire (.cbz rt offset) (if s.regVal rt = 0 then s.pc + offset else s.pc + 1)) := by
  rw [← branchIf_of_iff (regIsZero_iff s rt)]
  rfl

theorem exec_cbnz (rt : RegIdx) (offset : Int) (s : State) :
    exec (.cbnz rt offset) s =
      .next (s.retire (.cbnz rt offset) (if s.regVal rt ≠ 0 then s.pc + offset else s.pc + 1)) := by
  have taken : (!regIsZero s rt) = true ↔ s.regVal rt ≠ 0 := by
    rw [Bool.not_eq_true', ← Bool.not_eq_true, regIsZero_iff]
  rw [← branchIf_of_iff taken]
  rfl

end Sys2Proof.Machine

/-! The statements. -/

namespace Sys2Proof.Proofs

open Sys2Proof Sys2Proof.Machine

/-- Settles O39: CBZ only retires, at the index the test of the register selects. -/
theorem cbzBranchesOnZero : Obligations.CbzBranchesOnZero :=
  ⟨fun _ row => decode_of_rowPattern row rfl, fun rt offset s => ⟨rfl, _, exec_cbz rt offset s, retire_frame _ _ s⟩⟩

/-- Settles O40: CBNZ only retires, at the index the negated test selects. -/
theorem cbnzBranchesOnNonZero : Obligations.CbnzBranchesOnNonZero :=
  ⟨fun _ row => decode_of_rowPattern row rfl, fun rt offset s => ⟨rfl, _, exec_cbnz rt offset s, retire_frame _ _ s⟩⟩

end Sys2Proof.Proofs

/-! PROOFS, the IM-format family (45_im_format.md): the wide moves as rows that `INCOMPLETE_OPS` decides. -/

namespace Sys2Proof.Proofs

open Sys2Proof Sys2Proof.Machine

/-- Settles O41: the two wide moves share their operand text, and `INCOMPLETE_OPS` decides the meaning of each. -/
theorem wideMovesAreTracedOnlyOrRefused : Obligations.WideMovesAreTracedOnlyOrRefused := by
  refine ⟨fun w => ⟨fun row => decode_of_rowPattern row rfl, fun row => decode_of_rowPattern row rfl⟩,
    fun rd field shiftCode s i move => ?_⟩
  have text : operandText i = wideText rd field shiftCode := by
    fin_cases move <;> rfl
  have row : i.mnemonic ∈ [Mnemonic.LSR, .LSL, .ASR, .MOVZ, .MOVK] := by
    fin_cases move <;> simp [Instr.mnemonic]
  exact ⟨text, exec_incomplete_of_tracedOnly row, exec_incomplete_of_refuse row⟩

end Sys2Proof.Proofs

/-! PROOFS, the D-format family (46_d_format.md): a bank in signed numbers before and after a store, what a load gives in terms of
the bank's slots, and the store and the load as one effect each, then retirement. -/

/-! Banks in signed numbers (R12, R31, R45, R46). -/

namespace Sys2Proof.Machine

/-- The signed reading of a bank follows a write to one of its slots. -/
theorem signedValues_set {width n : Nat} (b : Vector (BitVec width) n) (j : Nat) (v : BitVec width) (hj : j < n) :
    signedValues (b.set j v) = (signedValues b).set j v.toInt := by
  rw [signedValues_eq_map, signedValues_eq_map, Vector.map_set]

/-- A bank just created reads as eight zeros (R31). -/
theorem signedValues_freshBank (width : Nat) : signedValues (freshBank width) = #v[0, 0, 0, 0, 0, 0, 0, 0] := by
  rw [signedValues_eq_map, freshBank, Vector.map_replicate]
  exact congrArg (Vector.replicate 8) BitVec.toInt_zero

/-- The signed reading of the bank a store starts from: the one that exists, or eight zeros (R46). -/
theorem signedValues_bankAt_getD (s : State) (key : Int) :
    signedValues ((bankAt s.mem (BitVec.ofInt s.params.width key)).getD (freshBank s.params.width)) =
      (s.slots key).getD #v[0, 0, 0, 0, 0, 0, 0, 0] := by
  rw [← signedValues_freshBank s.params.width, State.slots, Option.getD_map]

/-- A store leaves at its key the bank that was there, or a new one of zeros, with slot 0 the value (R46). -/
theorem slots_store_same (s : State) (v : BitVec s.params.width) {key : Int} {a : BitVec s.params.width}
    (h : BitVec.ofInt s.params.width key = a) :
    (s.store a v).slots key = some (((s.slots key).getD #v[0, 0, 0, 0, 0, 0, 0, 0]).set 0 v.toInt) := by
  subst h
  rw [slots_store, if_pos rfl, signedValues_set, signedValues_bankAt_getD]

/-- A store leaves the bank of every other key (R41). -/
theorem slots_store_other (s : State) (v : BitVec s.params.width) {key : Int} {a : BitVec s.params.width}
    (h : BitVec.ofInt s.params.width key ≠ a) : (s.store a v).slots key = s.slots key :=
  (slots_store s a v key).trans (if_neg h)

/-- A load gives slot 0 of the bank of its key, or 0 where there is none (R45). -/
theorem loadVal_eq_slot_zero (s : State) (key : Int) : s.loadVal key = ((s.slots key).map (fun v => v[0])).getD 0 := by
  rw [State.loadVal, State.load, memRead, State.slots]
  cases bankAt s.mem (BitVec.ofInt s.params.width key) with
  | none => exact BitVec.toInt_zero
  | some b => exact (signedValues_getElem b 0 (by decide)).symm

/-- The load at the effective address is the load of its signed value (R44, R45). -/
theorem toInt_load_effectiveAddress (s : State) (rn : RegIdx) (address : Nat) :
    (s.load (effectiveAddress s rn address)).toInt = s.loadVal (s.eaVal rn address) :=
  congrArg (fun a => (s.load a).toInt) (ofInt_eaVal s rn address).symm

/-! One bank stored to, then retirement (R106, R155). -/

/-- Storing and retiring leaves every register, the other banks and the rest of the state; the event shows memory after the store
(R103, R106, R110). -/
theorem store_retire_frame (i : Instr) (npc : Int) (s : State) (a v : BitVec s.params.width) :
    (∀ key, BitVec.ofInt s.width key ≠ a → ((s.store a v).retire i npc).slots key = s.slots key) ∧
      SameRegs s ((s.store a v).retire i npc) ∧ SameControl s ((s.store a v).retire i npc) ∧
      SameProgram s ((s.store a v).retire i npc) ∧ RetiredTo i npc s ((s.store a v).retire i npc) := by
  obtain ⟨-, regs, memory, control, program, -⟩ := retire_frame i npc (s.store a v)
  exact ⟨fun key other => (memory key).trans (slots_store_other s v other), regs, control, program,
    retire_retiredTo i npc rfl rfl rfl⟩

/-! The reserved field (R157). -/

/-- STUR's effect reads no `op2`, and neither does its event (R110, R157). -/
theorem exec_stur_op2 (rt rn : RegIdx) (address op2 op2' : Nat) (s : State) :
    exec (.stur rt rn address op2) s = exec (.stur rt rn address op2') s := rfl

/-- LDUR's effect reads no `op2`, and neither does its event (R110, R157). -/
theorem exec_ldur_op2 (rt rn : RegIdx) (address op2 op2' : Nat) (s : State) :
    exec (.ldur rt rn address op2) s = exec (.ldur rt rn address op2') s := rfl

end Sys2Proof.Machine

/-! The statements. -/

namespace Sys2Proof.Proofs

open Sys2Proof Sys2Proof.Machine

/-- Settles O43: STUR stores at the effective address, which is the key its signed value names, and retires. -/
theorem sturStoresTheRegister : Obligations.SturStoresTheRegister := by
  refine ⟨fun _ row => decode_of_rowPattern row rfl, fun rt rn address op2 s =>
    ⟨rfl, _, exec_stur rt rn address op2 s, ?_, ?_⟩⟩
  · rw [slots_retire]
    exact slots_store_same s (s.reg rt) (ofInt_eaVal s rn address)
  · rw [ofInt_eaVal]
    exact store_retire_frame _ (nextIndex s) s _ _

/-- Settles O44: LDUR writes what the load at the old base's address gives, and a register write moves no bank. -/
theorem ldurLoadsSlotZero : Obligations.LdurLoadsSlotZero := by
  refine ⟨fun _ row => decode_of_rowPattern row rfl, fun rt rn address op2 s =>
    ⟨rfl, _, exec_ldur rt rn address op2 s, ?_, setReg_retire_frame _ (nextIndex s) rt s _⟩⟩
  rw [regVal_retire, regVal_setReg_same, toInt_load_effectiveAddress, loadVal_eq_slot_zero]

/-- Settles O45: neither row reads `op2`, and the offset is four times an unsigned field of nine bits. -/
theorem reservedFieldChangesNothing : Obligations.ReservedFieldChangesNothing := by
  refine ⟨fun rt rn address op2 op2' s => ⟨exec_stur_op2 .., exec_ldur_op2 ..⟩,
    fun w s rn => ⟨4 * unsignedAt w 12 9, ?_, ?_⟩⟩
  · have fits : unsignedAt w 12 9 < 2 ^ 9 := of_decide_eq_true (unsignedAt_fits w 12 9)
    omega
  · rw [eaVal_eq_bmod, Nat.cast_mul, Nat.cast_ofNat]

end Sys2Proof.Proofs

/-! PROOFS, the family of NOP, BREAK and data, of exceptions, and of reset and hazards (47_nop_break_data.md, 60_exceptions.md,
70_reset_and_hazards.md): NOP, the diagnostics of the decode pass entry by entry, the decode pass as a run, and the branch to
itself. -/

namespace Sys2Proof.Machine

/-! NOP, and the RAW-DATA records that run as NOP (R161, R163). -/

/-- NOP retires at the next index and does nothing else (R161). -/
theorem exec_nop (s : State) : exec .nop s = .next (s.retire .nop (nextIndex s)) := rfl

/-- A RAW-DATA word is data to the policy and NOP to the engine: `DATA_EXEC` decides which it is (R105, R163). -/
theorem runRecord_rawData (index : Nat) (raw : String) (w : InstrWord) (s : State) :
    runRecord (buildRecord true index (.word raw w)) s =
      if s.params.dataExec = .fault then .next (s.stop (.faulted .dataExecuted)) else exec .nop s := by
  have data : (buildRecord true index (.word raw w)).format = some .rawData :=
    (buildRecord_format_rawData_iff _ _ _).mpr rfl
  have instr := engineInstr_rawData index raw w
  split_ifs with fault
  · exact runRecord_of_dataStops instr ((dataStops_iff _ _).mpr ⟨data, fault⟩)
  · refine runRecord_of_not_dataStops instr fun stops => ?_
    obtain ⟨-, stopped⟩ := (dataStops_iff _ _).mp stops
    exact fault stopped

/-! The diagnostics of the decode pass, entry by entry (R81, R171, R172). -/

/-- A malformed entry is always reported, a word when it is unclassified and no BREAK came before it (R171, R172). -/
theorem mem_decodeDiag_iff (haltSeen : Bool) (i : Nat) (e : Entry) (kind : DiagKind) (k : Nat) :
    (⟨kind, k⟩ : Diagnostic) ∈ decodeDiag haltSeen i e ↔
      k = i ∧ ((kind = .malformedWord ∧ ∃ raw, e = .malformed raw) ∨
        (kind = .invalidOpcode ∧ ∃ raw w, e = .word raw w ∧ classify (opcodeOf w) = none ∧ haltSeen = false)) := by
  cases e with
  | malformed raw => simp [decodeDiag, and_comm]
  | word raw w => simp [decodeDiag, and_comm, and_assoc]

@[simp] theorem haltSeenAt_zero (haltSeen : Bool) (i : Nat) (es : List Entry) :
    haltSeenAt haltSeen i es 0 = haltSeen := by
  simp [haltSeenAt]

/-- Past its first entry a decode pass is the pass of the other entries, under the `haltSeen` the first one leaves (R81). -/
theorem haltSeenAt_cons_succ (haltSeen : Bool) (i : Nat) (e : Entry) (es : List Entry) (j : Nat) :
    haltSeenAt haltSeen i (e :: es) (j + 1) =
      haltSeenAt (haltSeenAfter haltSeen (buildRecord haltSeen i e)) (i + 1) es j := by
  simp [haltSeenAt, decodeFrom, haltSeenAfter, Bool.or_assoc]

/-- The decode pass reports what its entries raise, each under the `haltSeen` it is decoded with (R81). -/
theorem mem_diagsFrom_iff (haltSeen : Bool) (i : Nat) (es : List Entry) (d : Diagnostic) :
    d ∈ diagsFrom haltSeen i es ↔
      ∃ j e, es[j]? = some e ∧ d ∈ decodeDiag (haltSeenAt haltSeen i es j) (i + j) e := by
  induction es generalizing haltSeen i with
  | nil => simp [diagsFrom]
  | cons e es ih =>
    rw [diagsFrom, List.mem_append, ih]
    refine Iff.trans ?_ Nat.or_exists_add_one
    simp [haltSeenAt_cons_succ, Nat.add_assoc, Nat.add_comm 1]

/-- `haltSeen` is set at an entry exactly when an earlier entry is a BREAK word: the first such word is a BREAK record (R28,
R83). -/
theorem haltSeenAt_start_iff_word (entries : List Entry) (j : Nat) :
    haltSeenAt false 0 entries j = true ↔
      ∃ i < j, ∃ raw w, entries[i]? = some (.word raw w) ∧ (opcodeOf w).toNat = 2038 := by
  rw [haltSeenAt_start_iff]
  constructor
  · rintro ⟨i, before, earlier, at_i, isBreak⟩
    rw [decodeFrom_getElem?, Option.map_eq_some_iff] at at_i
    obtain ⟨e, entry, rfl⟩ := at_i
    obtain ⟨-, raw, w, rfl, opcode⟩ := (buildRecord_format_break_iff _ _ _).mp isBreak
    exact ⟨i, before, raw, w, entry, opcode⟩
  · rintro ⟨i, before, raw, w, entry, opcode⟩
    cases seen : haltSeenAt false 0 entries i with
    | true =>
      obtain ⟨k, hk, earlier⟩ := (haltSeenAt_start_iff entries i).mp seen
      exact ⟨k, hk.trans before, earlier⟩
    | false =>
      refine ⟨i, before, buildRecord false (0 + i) (.word raw w), ?_, ?_⟩
      · rw [decodeFrom_getElem?, entry, seen, Option.map_some]
      · exact (buildRecord_format_break_iff _ _ _).mpr ⟨rfl, raw, w, rfl, opcode⟩

/-- `haltSeen` is clear at an entry exactly while no earlier entry is a BREAK word (R28, R83). -/
theorem haltSeenAt_start_eq_false_iff_word (entries : List Entry) (j : Nat) :
    haltSeenAt false 0 entries j = false ↔
      ∀ i < j, ∀ raw w, entries[i]? = some (.word raw w) → (opcodeOf w).toNat ≠ 2038 := by
  rw [← Bool.not_eq_true, haltSeenAt_start_iff_word]
  simp only [not_exists, not_and, ne_eq]

/-! The decode pass as a run (R81, R190). -/

/-- While an entry is left, a step of the decoding phase decodes it (R81; log entry 3). -/
theorem step_of_entry {s : State} {e : Entry} (phase : s.phase = .decoding) (entry : s.entries[s.nextEntry]? = some e) :
    step s = .next (decodeEntry s e) := by
  simp only [step, coreStep, phase, decodeStep, entry]

/-- After the last entry, a step of the decoding phase resets the engine (R190). -/
theorem step_of_no_entry {s : State} (phase : s.phase = .decoding) (done : s.entries[s.nextEntry]? = none) :
    step s = .next (engineReset s) := by
  simp only [step, coreStep, phase, decodeStep, done]

/-- With `es` left to decode, one step an entry and one for the engine reset end the decoding phase (R81, R190). -/
theorem steps_decode_pass {s : State} {es : List Entry} (phase : s.phase = .decoding)
    (left : s.entries.drop s.nextEntry = es) : Steps (es.length + 1) s (engineReset (es.foldl decodeEntry s)) := by
  induction es generalizing s with
  | nil =>
    have done : s.entries[s.nextEntry]? = none := List.getElem?_eq_none (List.drop_eq_nil_iff.mp left)
    exact steps_succ.mpr ⟨_, step_of_no_entry phase done, steps_zero.mpr rfl⟩
  | cons e es ih =>
    have entry : s.entries[s.nextEntry]? = some e := by
      rw [← List.head?_drop, left, List.head?_cons]
    have left' : (decodeEntry s e).entries.drop (decodeEntry s e).nextEntry = es := by
      rw [decodeEntry_entries, decodeEntry_nextEntry, ← List.tail_drop, left, List.tail_cons]
    exact steps_succ.mpr ⟨_, step_of_entry phase entry, ih phase left'⟩

/-- Decoding `es` one entry at a time makes the records and diagnostics of the decode pass over `es` (R81). -/
theorem foldl_decodeEntry (es : List Entry) (s : State) :
    es.foldl decodeEntry s =
      { s with
        image := s.image ++ decodeFrom s.haltSeen s.nextEntry es
        diag := s.diag ++ diagsFrom s.haltSeen s.nextEntry es
        haltSeen := s.haltSeen || (decodeFrom s.haltSeen s.nextEntry es).any (fun record => record.format == some .BREAK)
        nextEntry := s.nextEntry + es.length } := by
  induction es generalizing s with
  | nil => simp [decodeFrom, diagsFrom]
  | cons e es ih =>
    rw [List.foldl_cons, ih]
    simp [decodeEntry, decodeFrom, diagsFrom, haltSeenAfter, Bool.or_assoc, Nat.add_assoc, Nat.add_comm 1]

/-- Decoding every entry of a launch and resetting the engine boots it (R190, R191). -/
theorem engineReset_foldl_launch (p : Params) (entries : List Entry) :
    engineReset (entries.foldl decodeEntry (launch p entries)) = boot p entries := by
  rw [foldl_decodeEntry]
  simp [boot, launch]

/-! The branch to itself (R199). -/

/-- The word `0x14000000` is `B #0` (R121, R199). -/
theorem decode_branchToItself : decode 0x14000000 = .ok (.b 0) := decode_of_rowPattern (by decide) (by decide)

/-- At `B #0` a step retires the branch with the same index as the next (R121, R199). -/
theorem step_of_branchToItself {s : State} {index : Nat} {raw : String} (active : Active s) (nonneg : 0 ≤ s.pc)
    (at_pc : s.image[s.pc.toNat]? = some (buildRecord false index (.word raw 0x14000000))) :
    step s = .next (s.retire (.b 0) s.pc) := by
  rw [step_of_decode active nonneg at_pc decode_branchToItself, exec_b, Int.add_zero]

end Sys2Proof.Machine

/-! The statements. -/

namespace Sys2Proof.Proofs

open Sys2Proof Sys2Proof.Machine

/-- Settles O46: NOP's row gives the decoding, and NOP does nothing but retire. -/
theorem nopOnlyRetires : Obligations.NopOnlyRetires := by
  refine ⟨fun _ row => decode_of_rowPattern row rfl, rfl, fun s => ⟨_, exec_nop s, ?_⟩⟩
  obtain ⟨retired, regs, memory, control, program, -⟩ := retire_frame .nop (nextIndex s) s
  exact ⟨retired, regs, memory, control, program⟩

/-- Settles O47: BREAK sets `halted` and then retires, and `halted` is the first test of the next iteration. -/
theorem breakSetsHaltedAndRetires : Obligations.BreakSetsHaltedAndRetires := by
  refine ⟨fun _ row => decode_of_rowPattern row rfl, rfl, fun s => ⟨_, exec_brk s, rfl, rfl, rfl, ?_⟩⟩
  obtain ⟨-, regs, memory, -, program, -⟩ := retire_frame .brk (nextIndex s) s.halt
  exact ⟨retire_retiredTo .brk _ rfl rfl rfl, regs, memory, program,
    fun phase running => ⟨_, step_of_halted phase running rfl, stoppedAs_stop _ _⟩⟩

/-- Settles O19: each entry's diagnostics under the `haltSeen` it is decoded with, which says whether a BREAK word came
before. -/
theorem decodePassReportsExactlyTheBadEntries : Obligations.DecodePassReportsExactlyTheBadEntries := by
  intro entries kind i
  rw [mem_diagsFrom_iff, ← haltSeenAt_start_eq_false_iff_word]
  simp only [mem_decodeDiag_iff, Nat.zero_add]
  constructor
  · rintro ⟨_, e, entry, rfl, ⟨hkind, raw, rfl⟩ | ⟨hkind, raw, w, rfl, bad⟩⟩
    · exact .inl ⟨hkind, raw, entry⟩
    · exact .inr ⟨hkind, raw, w, entry, bad⟩
  · rintro (⟨hkind, raw, entry⟩ | ⟨hkind, raw, w, entry, bad⟩)
    · exact ⟨i, _, entry, rfl, .inl ⟨hkind, raw, rfl⟩⟩
    · exact ⟨i, _, entry, rfl, .inr ⟨hkind, raw, w, rfl, bad⟩⟩

/-- Settles O14: the run decodes the entries one by one, which makes the records of the whole pass. -/
theorem launchBootsInOneStepPerEntry : Obligations.LaunchBootsInOneStepPerEntry := by
  intro p entries
  rw [← engineReset_foldl_launch]
  exact steps_decode_pass rfl rfl

/-- Settles O29, by induction on the number of steps: each one retires the branch and leaves the engine at it. -/
theorem branchToItselfNeverEnds : Obligations.BranchToItselfNeverEnds := by
  intro s index raw active nonneg at_pc k
  induction k generalizing s with
  | zero => exact ⟨s, steps_zero.mpr rfl, active, rfl, rfl, rfl, fun _ => rfl, fun _ => rfl⟩
  | succ k ih =>
    obtain ⟨t, run, stillActive, pc, cycle, trace, regs, memory⟩ := ih (s.retire (.b 0) s.pc) active nonneg at_pc
    refine ⟨t, steps_succ.mpr ⟨_, step_of_branchToItself active nonneg at_pc, run⟩, stillActive, pc, ?_, ?_, regs, memory⟩
    · rw [cycle, retire_cycle]
      omega
    · rw [trace, retire_trace, List.length_append, List.length_singleton]
      omega

/-- Settles O24: a RAW-DATA word by what `DATA_EXEC` makes of it, a malformed entry as a record without a class. -/
theorem rawDataRunsAsNopOrStops : Obligations.RawDataRunsAsNopOrStops := by
  intro s index active nonneg
  refine ⟨fun raw w at_pc => ?_, fun raw at_pc => ?_⟩
  · rw [step_of_record active nonneg at_pc, runRecord_rawData]
    exact ⟨fun asNop => if_neg (by simp [asNop]), fun fault => ⟨_, if_pos fault, stoppedAs_stop s _⟩⟩
  · have noInstr := engineInstr_of_unclassified (engineClass_malformed true index raw)
    rw [step_of_record active nonneg at_pc, runRecord_of_none noInstr]
    exact ⟨_, rfl, skippedTo_skipRecord s⟩

/-- Settles O15: the reset values are read off the engine reset; registers and banks are 0 and absent by their readings. -/
theorem engineResetLeavesTheStatedValues : Obligations.EngineResetLeavesTheStatedValues :=
  fun _ entries => ⟨regVal_of_x_zero rfl, rfl, rfl, rfl, rfl, slots_boot_noPreload entries, rfl, rfl, rfl⟩

end Sys2Proof.Proofs
